-- ==== Sys2Proof/Word.lean ====
section
/-! DEFINITION. The word types of the engine (00_scope.md section 6.1). The arithmetic of R8 and R9 stands in
Machine/Operands.lean. -/

namespace Sys2Proof

/-- `u32`: the content of every register of the engine; bit 0 is the least significant (00_scope.md section 6.1). -/
abbrev Word := BitVec 32

/-- The `op` field of a command word, bits 7:0 (R45). -/
abbrev OpCode := BitVec 8

/-- A register index of the port: 4 bits, so an index outside 0 to 15 cannot be expressed (R30, R37). -/
abbrev RegIndex := Fin 16

end Sys2Proof
end

