-- ==== Sys2Proof/Syntax.lean ====
section
/-! DEFINITION. The command set: one constructor per row of spec/opcode_table.json (R47). -/

namespace Sys2Proof

/-- The fourteen commands (R47). A command has no operand field: its operands are whole `ARG` registers (R48). The aliases
`U32_ANY` and `DICE` are `advance` and `u32To`, bit for bit (R55, R81). -/
inductive Instr where
  | seed
  | ldst
  | clrErr
  | mix32
  | advance
  | u32To
  | u32In
  | s32In
  | oneIn
  | unitFromBits
  | eunitFromBits
  | floatUnit
  | floatEunit
  | shuffle
deriving DecidableEq, Repr

/-- Every command, in the table's order. -/
def Instr.all : List Instr :=
  [.seed, .ldst, .clrErr, .mix32, .advance, .u32To, .u32In, .s32In, .oneIn, .unitFromBits, .eunitFromBits,
   .floatUnit, .floatEunit, .shuffle]

end Sys2Proof
end

