-- ==== Sys2Proof/WellFormed.lean ====
section
/-! DEFINITION. Which command words are legal (R46, R50). A term of `Instr` carries no field, so every term of it is well
formed; what can be ill formed is a command word, by its reserved bits or by its opcode, and these are the two checks. -/

namespace Sys2Proof

/-- The check on the reserved bits: bits 31:8 of the word are all zero (R45). -/
def rsvOk (w : Word) : Bool := w.toNat / 2 ^ 8 == 0

/-- The check on the opcode, bits 7:0, from the list of UNASSIGNED opcodes of R50: `0x00`, `0x05` to `0x0F`, `0x15` to `0x1F`,
`0x24` to `0x2F`, `0x31` to `0xFF`. -/
def opUnassigned (n : Nat) : Bool :=
  n == 0x00 || (0x05 ≤ n && n ≤ 0x0F) || (0x15 ≤ n && n ≤ 0x1F) || (0x24 ≤ n && n ≤ 0x2F) || (0x31 ≤ n && n ≤ 0xFF)

/-- A legal command word (R46). -/
def wordLegal (w : Word) : Bool := rsvOk w && !opUnassigned (w.toNat % 2 ^ 8)

end Sys2Proof
end

