-- ==== Sys2Proof/Decode.lean ====
section
/-! DEFINITION. The decoder of command words and the encoder (R45 to R47, R50). A command word is one 32-bit word that the
engine receives whole: there are no bytes and no byte order (R36). -/

namespace Sys2Proof

/-- The `rsv` field of a command word, bits 31:8 (R45, R46). -/
def rsvField (w : Word) : BitVec 24 := w.extractLsb' 8 24

/-- The `op` field of a command word, bits 7:0 (R45, R46). -/
def opField (w : Word) : OpCode := w.extractLsb' 0 8

/-- Why a command word names no command (R50). -/
inductive DecodeError where
  /-- Bits 31:8 are not all zero. -/
  | reservedBits
  /-- Bits 31:8 are zero and the opcode is not assigned. -/
  | unassignedOpcode (op : OpCode)
deriving DecidableEq, Repr

/-- The command an opcode selects: the opcode map (R47). -/
def commandOf (op : OpCode) : Option Instr :=
  match op.toNat with
  | 0x01 => some .seed
  | 0x02 => some .ldst
  | 0x03 => some .clrErr
  | 0x04 => some .mix32
  | 0x10 => some .advance
  | 0x11 => some .u32To
  | 0x12 => some .u32In
  | 0x13 => some .s32In
  | 0x14 => some .oneIn
  | 0x20 => some .unitFromBits
  | 0x21 => some .eunitFromBits
  | 0x22 => some .floatUnit
  | 0x23 => some .floatEunit
  | 0x30 => some .shuffle
  | _ => none

/-- The decoder: the reserved bits first, then the opcode (R46, R49 step 2, R50). -/
def decode (w : Word) : Except DecodeError Instr :=
  if rsvField w = 0 then
    match commandOf (opField w) with
    | some i => .ok i
    | none => .error (.unassignedOpcode (opField w))
  else .error .reservedBits

/-- The full command word of each command (R47). -/
def encode (i : Instr) : Word :=
  match i with
  | .seed => 0x00000001
  | .ldst => 0x00000002
  | .clrErr => 0x00000003
  | .mix32 => 0x00000004
  | .advance => 0x00000010
  | .u32To => 0x00000011
  | .u32In => 0x00000012
  | .s32In => 0x00000013
  | .oneIn => 0x00000014
  | .unitFromBits => 0x00000020
  | .eunitFromBits => 0x00000021
  | .floatUnit => 0x00000022
  | .floatEunit => 0x00000023
  | .shuffle => 0x00000030

/-- The command word whose low `nbits` bits are those of `w` and whose other bits are zero (log 12). -/
def tableWord (nbits w : Nat) : Word := BitVec.ofNat 32 (w % 2 ^ nbits)

/-- The command the decoder reads from a table word. A number that does not fit `nbits`, or a width above 32, is no command
word: there is one length, 32 bits (R45, R52; log 12). -/
def decodeTableWord (nbits w : Nat) : Option Instr :=
  if nbits ≤ 32 && decide (w < 2 ^ nbits) then (decode (tableWord nbits w)).toOption else none

end Sys2Proof
end

