-- ==== Sys2Proof/Machine/State.lean ====
section
/-! DEFINITION. The state of the machine (10_state.md), the reasons it can stop, and its reset value (R22). -/

namespace Sys2Proof.Machine

/-- A generator state: the pair `(S0, S1)` (R10). -/
structure Gen where
  s0 : Word
  s1 : Word
deriving DecidableEq, Repr

/-- What the host can do to the engine in one step (R6, R54): read a register, write a register (a write to index 0 presents a
command word), or assert reset. -/
inductive Transaction where
  | read (index : RegIndex)
  | write (index : RegIndex) (data : Word)
  | reset
deriving DecidableEq, Repr

/-- The causes of a fault of the engine, each with a code of its own in `ERR` (R141). Raising one is a next state, not a stop. -/
inductive FaultCode where
  | illegalCmd
  | unseeded
  | zeroBound
  | invertedRange
  | shuffleRange
  | zeroState
deriving DecidableEq, Repr

/-- The state. The first nine fields are the whole state of the engine, 229 bits (R19: "There is nothing else"). The last two
are the host agent's side of a run (R6, R12, R23; log 1, log 2): no command reads or writes them. -/
structure State where
  /-- `S0`: first word of the generator state (R10). -/
  s0 : Word
  /-- `S1`: second word of the generator state (R10). -/
  s1 : Word
  /-- `SEEDED`: a generator state has been created since reset (R13). -/
  seeded : Bool
  /-- `ARG0`: operand register 0 (R14). -/
  arg0 : Word
  /-- `ARG1`: operand register 1 (R14). -/
  arg1 : Word
  /-- `ARG2`: operand register 2 (R14). -/
  arg2 : Word
  /-- `RES`: result register (R15). -/
  res : Word
  /-- `ERR`: fault code, 0 when not faulted (R16). -/
  err : BitVec 4
  /-- `FINFO`: the command word of the recorded fault (R17). -/
  finfo : Word
  /-- The host's transactions that the port has not accepted yet, in the order of issue (R40; log 1). -/
  pending : List Transaction
  /-- The data that the host's reads were given, newest first (R32; log 2). -/
  readLog : List Word
deriving DecidableEq, Repr

/-- The ways the model can stop. The faults of the ENGINE are not among them: they are next states (R143). -/
inductive Fault where
  /-- A command whose loop never ends: a stuck state, raised by `drawInto` (U32_TO, U32_IN, S32_IN, ONE_IN) and by the
  cycle walk of SHUFFLE (R166, U15). Safe: the engine gives no result and accepts no transaction there. -/
  | hang
deriving DecidableEq, Repr

/-- The ways the model can refuse. -/
inductive Refusal where
  /-- An instruction without a meaning. No arm of `exec` answers it: every command is modelled. Safe. -/
  | notModelled (mnemonic : String)
deriving DecidableEq, Repr

/-- The outcome of a command or of a step. -/
abbrev Result := Host.Outcome State Fault Refusal

/-- The machine right after reset: every piece of engine state is 0 (R22, R160); the host has issued nothing (log 1) and
has read nothing (log 2). -/
def State.reset : State :=
  { s0 := 0, s1 := 0, seeded := false, arg0 := 0, arg1 := 0, arg2 := 0, res := 0, err := 0, finfo := 0,
    pending := [], readLog := [] }

end Sys2Proof.Machine
end

