-- ==== Sys2Proof/Machine/Operands.lean ====
section
/-! DEFINITION. The arithmetic primitives on `u32` (R8, R9) and the one operand form: a whole `ARG` register (R48). -/

namespace Sys2Proof.Machine

/-- `add32(a, b) = (a + b) mod 2^32` (R8). -/
abbrev add32 (a b : Word) : Word := a + b

/-- `sub32(a, b) = (a - b) mod 2^32` (R8). -/
abbrev sub32 (a b : Word) : Word := a - b

/-- `neg32(a) = (2^32 - a) mod 2^32` (R8). -/
abbrev neg32 (a : Word) : Word := -a

/-- `mul32(a, b) = (a * b) mod 2^32` (R8). -/
abbrev mul32 (a b : Word) : Word := a * b

/-- `xor32` (R8). -/
abbrev xor32 (a b : Word) : Word := a ^^^ b

/-- `and32` (R8). -/
abbrev and32 (a b : Word) : Word := a &&& b

/-- `or32` (R8). -/
abbrev or32 (a b : Word) : Word := a ||| b

/-- `shl32(x, k) = (x * 2^k) mod 2^32` (R8). -/
abbrev shl32 (x : Word) (k : Nat) : Word := x <<< k

/-- `shr32(x, k) = floor(x / 2^k)`, logical (R8). -/
abbrev shr32 (x : Word) (k : Nat) : Word := x >>> k

/-- `umod(a, b) = a mod b`, applied only with `b > 0` (R8). -/
abbrev umod (a b : Word) : Word := a % b

/-- `ult(a, b)`: `a < b` as unsigned integers (R8). -/
abbrev ult (a b : Word) : Bool := BitVec.ult a b

/-- `slt(a, b)`: `signed(a) < signed(b)` (R8). -/
abbrev slt (a b : Word) : Bool := BitVec.slt a b

/-- `rotl32(x, k)`, for `k` in `[1, 31]` (R9). -/
def rotl32 (x : Word) (k : Nat) : Word := or32 (shl32 x k) (shr32 x (32 - k))

end Sys2Proof.Machine
end

