-- ==== Sys2Proof/Machine/Flags.lean ====
section
/-! DEFINITION. The flags: `SEEDED` (R13), the fault code `ERR` (R16, R141) and the `STATUS` view (R18). There are no
condition codes (R13) and no floating-point flags (R98). -/

namespace Sys2Proof.Machine

/-- The code of each cause of a fault (R141). -/
def FaultCode.code (c : FaultCode) : BitVec 4 :=
  match c with
  | .illegalCmd => 1
  | .unseeded => 2
  | .zeroBound => 3
  | .invertedRange => 4
  | .shuffleRange => 5
  | .zeroState => 6

/-- Faulted: `ERR` is not 0 (R16, R144). -/
def State.faulted (s : State) : Bool := s.err != 0

/-- The `SEEDED` flag as a bit (R18). -/
def State.seededBit (s : State) : BitVec 1 := BitVec.ofBool s.seeded

/-- `STATUS = {0[23:0], ERR[3:0], 0[2:0], SEEDED}` (R18, R32). -/
def State.status (s : State) : Word := (((0 : BitVec 24) ++ s.err) ++ (0 : BitVec 3)) ++ s.seededBit

end Sys2Proof.Machine
end

