-- ==== Sys2Proof/Machine/Ops.lean ====
section
/-! DEFINITION. The named operations the meanings share: reading and writing registers through the port (R32, R33), entering
and leaving a fault (R143, R145), reset (R160), the gate every command but CLRERR passes (R49), the finalizer `F` (R60) and
`Advance` (R64). -/

namespace Sys2Proof.Machine

/-! ## Registers -/

/-- The resident generator state (R10). -/
def State.gen (s : State) : Gen := ⟨s.s0, s.s1⟩

/-- Writes `S0`, `S1`, as `Advance` does (R64). -/
def State.setGen (g : Gen) (s : State) : State := { s with s0 := g.s0, s1 := g.s1 }

/-- Makes a pair the resident generator state: `S0`, `S1` and `SEEDED <- 1` (R63, R67). -/
def State.install (g : Gen) (s : State) : State := { s with s0 := g.s0, s1 := g.s1, seeded := true }

/-- `RES <- v` (R15). -/
def State.setRes (v : Word) (s : State) : State := { s with res := v }

/-- `PortRead(i)`: the value; reading changes no state (R32). Index 0 and the indices 9 to 15 read as 0 (R19, R34). -/
def State.portRead (i : RegIndex) (s : State) : Word :=
  match i.val with
  | 0 => 0
  | 1 => s.status
  | 2 => s.arg0
  | 3 => s.arg1
  | 4 => s.arg2
  | 5 => s.res
  | 6 => s.s0
  | 7 => s.s1
  | 8 => s.finfo
  | _ => 0

/-- `PortWrite(i, v)` for an index other than 0: only `ARG0`, `ARG1` and `ARG2` are written, whether or not the engine is
faulted (R33, R34). -/
def State.writeReg (i : RegIndex) (v : Word) (s : State) : State :=
  match i.val with
  | 2 => { s with arg0 := v }
  | 3 => { s with arg1 := v }
  | 4 => { s with arg2 := v }
  | _ => s

/-- The host receives the data of a read (R32; log 2). -/
def State.logRead (v : Word) (s : State) : State := { s with readLog := v :: s.readLog }

/-- Reset: every piece of engine state takes its reset value and none survives (R160, R22). What the host has still to issue
and what it has read are the host's and stay (log 7). -/
def State.resetEngine (s : State) : State := { State.reset with pending := s.pending, readLog := s.readLog }

/-! ## Faults of the engine -/

/-- Fault entry while executing the command word `w`: `ERR <- code`, `FINFO <- w`, nothing else (R143). -/
def State.raiseFault (c : FaultCode) (w : Word) (s : State) : State := { s with err := c.code, finfo := w }

/-- Leaving the faulted state: `ERR <- 0`, `FINFO <- 0` (R115, R145). -/
def State.clearFault (s : State) : State := { s with err := 0, finfo := 0 }

/-- The commands that need `SEEDED` (R13, R48). -/
def needsSeeded (i : Instr) : Bool :=
  match i with
  | .seed => false
  | .ldst => false
  | .clrErr => false
  | .mix32 => false
  | .advance => true
  | .u32To => true
  | .u32In => true
  | .s32In => true
  | .oneIn => true
  | .unitFromBits => false
  | .eunitFromBits => false
  | .floatUnit => true
  | .floatEunit => true
  | .shuffle => false

/-- `raise Fault(code)` inside the command `i`: the command ends with fault entry and has no other effect (R143, R148). -/
def refuseCommand (c : FaultCode) (i : Instr) (s : State) : Result := .next (s.raiseFault c (encode i))

/-- The dispatch every command but CLRERR goes through (R49): step 1, a faulted engine discards it (R144); step 3, a command
that needs `SEEDED` raises `UNSEEDED` without it; step 4, `run`, the command's own rule. -/
def acceptCommand (i : Instr) (run : State → Result) (s : State) : Result :=
  if s.faulted then .next s
  else if needsSeeded i && !s.seeded then refuseCommand .unseeded i s
  else run s

/-- A command word that names no command: discarded while faulted (R144), else `Fault(ILLEGAL_CMD)` (R49 step 2, R50). -/
def refuseWord (w : Word) (s : State) : State :=
  if s.faulted then s else s.raiseFault .illegalCmd w

/-! ## The finalizer F (R60) -/

/-- The additive ("golden-ratio") constant (R4, R60). -/
def golden : Word := 0x9e3779b9

/-- The multiplier of round 1 (R4, R60). -/
def mixMul1 : Word := 0x85ebca6b

/-- The multiplier of round 2 (R4, R60). -/
def mixMul2 : Word := 0xc2b2ae3d

/-- The shift amount of round 1 (R4, R60). -/
abbrev mixShift1 : Nat := 15

/-- The shift amount of round 2 (R4, R60). -/
abbrev mixShift2 : Nat := 13

/-- The shift amount of round 3 (R4, R60). -/
abbrev mixShift3 : Nat := 16

/-- `z xor (z >> k)` (R60). -/
def xorShift (k : Nat) (z : Word) : Word := xor32 z (shr32 z k)

/-- `F(x)`, the 32-bit mixing finalizer (R60; log 9). Each constant stands first in its sum or product, so
that Lean's kernel stops at an unknown `x` instead of counting the constant down. -/
def finalizer (x : Word) : Word :=
  let z := add32 golden x
  let z := mul32 mixMul1 (xorShift mixShift1 z)
  let z := mul32 mixMul2 (xorShift mixShift2 z)
  xorShift mixShift3 z

/-! ## Advance (R64) -/

/-- The multiplier of the output (R4, R64). -/
def advanceMul : Word := 0x9E3779BB

/-- The raw word `Advance()` returns: a function of the old `S0` alone (R64). The constants stand first, as in `finalizer`. -/
def Gen.raw (g : Gen) : Word := mul32 5 (rotl32 (mul32 advanceMul g.s0) 5)

/-- The transition of `Advance()`: both writes use only the old values (R64). -/
def Gen.next (g : Gen) : Gen :=
  let a := g.s0
  let t := xor32 g.s1 a
  { s0 := xor32 (xor32 (rotl32 a 26) t) (shl32 t 9), s1 := rotl32 t 13 }

end Sys2Proof.Machine
end

