-- ==== Sys2Proof/Machine/CoreAdvance.lean ====
section
/-! DEFINITION. State and core advance: SEED, LDST, MIX32, ADVANCE (40_core_advance.md). -/

namespace Sys2Proof.Machine

/-- The generator state of a seed: `S1 = F(seed)`, `S0 = F(S1)` (R63). -/
def seedGen (seedBits : Word) : Gen :=
  let a := finalizer seedBits
  { s0 := finalizer a, s1 := a }

/-- SEED (R63). -/
def execSeed (s : State) : Result :=
  acceptCommand .seed (fun s => .next (s.install (seedGen s.arg0))) s

/-- LDST (R67): the pair `(0, 0)` is refused with `ZERO_STATE`. -/
def execLdst (s : State) : Result :=
  acceptCommand .ldst (fun s =>
    if s.arg0 = 0 ∧ s.arg1 = 0 then refuseCommand .zeroState .ldst s
    else .next (s.install ⟨s.arg0, s.arg1⟩)) s

/-- MIX32 (R62). -/
def execMix32 (s : State) : Result :=
  acceptCommand .mix32 (fun s => .next (s.setRes (finalizer s.arg0))) s

/-- One `Advance()`, its raw word turned into a result (R66, R96, R97). -/
def advanceInto (result : Word → Word) (s : State) : State :=
  (s.setGen s.gen.next).setRes (result s.gen.raw)

/-- ADVANCE, also U32_ANY (R66). -/
def execAdvance (s : State) : Result :=
  acceptCommand .advance (fun s => .next (advanceInto id s)) s

end Sys2Proof.Machine
end

