-- ==== Sys2Proof/Machine/Float.lean ====
section
/-! DEFINITION. The float distribution layer: UNIT_FROM_BITS, EUNIT_FROM_BITS, FLOAT_UNIT, FLOAT_EUNIT (42_float.md). A float
is its binary32 pattern. -/

namespace Sys2Proof.Machine

/-- `Trunc(bits) = bits[31:8]`: `FLOAT32_MANT_DIG` = 24 bits are kept (R4, R90). -/
def trunc (bits : Word) : Word := shr32 bits 8

/-- The position of the highest set bit of a non-zero word (R92, R93). -/
def highBit (v : Word) : Nat := Nat.log2 v.toNat

/-- `m = v * 2^(23 - p)`: a non-zero 24-bit value normalised into `[2^23, 2^24)` (R92, R93). -/
def normalised (v : Word) : Nat := v.toNat * 2 ^ (23 - highBit v)

/-- `EunitFromBits(bits)` in its exact integer form (R93): the binary32 pattern of `v * 2^-24`. -/
def eunitBits (bits : Word) : Word :=
  let v := trunc bits
  if v = 0 then 0
  else BitVec.ofNat 32 ((highBit v + 103) * 2 ^ 23 + (normalised v - 2 ^ 23))

/-- `UnitFromBits(bits)` in its exact integer form (R92): the binary32 pattern of `v / (2^24 - 1)`, correctly rounded (R91;
log 13). -/
def unitBits (bits : Word) : Word :=
  let v := trunc bits
  if v = 0 then 0
  else BitVec.ofNat 32 ((highBit v + 103) * 2 ^ 23 + (normalised v - 2 ^ 23) + 1)

/-- UNIT_FROM_BITS (R94). -/
def execUnitFromBits (s : State) : Result :=
  acceptCommand .unitFromBits (fun s => .next (s.setRes (unitBits s.arg0))) s

/-- EUNIT_FROM_BITS (R95). -/
def execEunitFromBits (s : State) : Result :=
  acceptCommand .eunitFromBits (fun s => .next (s.setRes (eunitBits s.arg0))) s

/-- FLOAT_UNIT (R96). -/
def execFloatUnit (s : State) : Result :=
  acceptCommand .floatUnit (fun s => .next (advanceInto unitBits s)) s

/-- FLOAT_EUNIT (R97). -/
def execFloatEunit (s : State) : Result :=
  acceptCommand .floatEunit (fun s => .next (advanceInto eunitBits s)) s

end Sys2Proof.Machine
end

