-- ==== Sys2Proof/Machine/Integer.lean ====
section
/-! DEFINITION. The integer distribution layer: U32_TO, U32_IN, S32_IN, ONE_IN (41_integer.md). -/

namespace Sys2Proof.Machine

/-- `Threshold(bound) = (2^32 - bound) mod bound` (R75). -/
def threshold (bound : Word) : Word := umod (neg32 bound) bound

/-- More advances than any rejection loop that ends can take. It is no cap: from every generator state other than `(0, 0)`
the loop ends sooner, and from `(0, 0)` a loop that has not ended by then never ends (log 4; `drawLoop_none_iff` in
Laws/Draw.lean). Any number from `2^64` on would do; the summand only keeps Lean from unrolling the loop on a state it does
not know. -/
def drawFuel (g : Gen) : Nat := 2 ^ 64 + g.s0.toNat

/-- The loop of `BoundedDraw`: advance until a raw word is not below the threshold (R76). Answers the accepted raw word and
the generator state after it. -/
def drawLoop (th : Word) (fuel : Nat) (g : Gen) : Option (Word × Gen) :=
  match fuel with
  | 0 => none
  | n + 1 => if ult g.raw th then drawLoop th n g.next else some (g.raw, g.next)

/-- `BoundedDraw(bound)`, for `bound` not 0 (R76): the remainder of the accepted raw word, and the generator state after
it. `none` means that the loop never ends. -/
def boundedDraw (bound : Word) (g : Gen) : Option (Word × Gen) :=
  (drawLoop (threshold bound) (drawFuel g) g).map fun r => (umod r.1 bound, r.2)

/-- What a command does with the outcome of its draw: it writes the generator state and a result made from the value drawn
(R77 to R80); a loop that never ends is a hang (R166). -/
def finishDraw (result : Word → Word) (s : State) (drawn : Option (Word × Gen)) : Result :=
  match drawn with
  | some (d, g) => .next ((s.setGen g).setRes (result d))
  | none => .fault .hang

/-- A command that takes one `BoundedDraw` and writes a result made from it (R77 to R80). -/
def drawInto (bound : Word) (result : Word → Word) (s : State) : Result :=
  finishDraw result s (boundedDraw bound s.gen)

/-- U32_TO, also DICE (R77). -/
def execU32To (s : State) : Result :=
  acceptCommand .u32To (fun s =>
    if s.arg0 = 0 then refuseCommand .zeroBound .u32To s
    else drawInto s.arg0 id s) s

/-- `hi - lo + 1 mod 2^32` (R78, R79). -/
def span (lo hi : Word) : Word := add32 (sub32 hi lo) 1

/-- What U32_IN and S32_IN share once the range is known not to be inverted: the full range has span 0 and is
`ZERO_BOUND`, else `lo` plus a draw (R78, R79). -/
def drawRange (i : Instr) (s : State) : Result :=
  if span s.arg0 s.arg1 = 0 then refuseCommand .zeroBound i s
  else drawInto (span s.arg0 s.arg1) (add32 s.arg0) s

/-- U32_IN (R78): the unsigned comparison. -/
def execU32In (s : State) : Result :=
  acceptCommand .u32In (fun s =>
    if ult s.arg1 s.arg0 then refuseCommand .invertedRange .u32In s
    else drawRange .u32In s) s

/-- S32_IN (R79): the signed comparison. -/
def execS32In (s : State) : Result :=
  acceptCommand .s32In (fun s =>
    if slt s.arg1 s.arg0 then refuseCommand .invertedRange .s32In s
    else drawRange .s32In s) s

/-- ONE_IN (R80): chance 0 is "never", takes no draw and is no fault. -/
def execOneIn (s : State) : Result :=
  acceptCommand .oneIn (fun s =>
    if s.arg0 = 0 then .next (s.setRes 0)
    else drawInto s.arg0 (fun d => if d = 0 then 1 else 0) s) s

end Sys2Proof.Machine
end

