-- ==== Sys2Proof/Machine/Shuffle.lean ====
section
/-! DEFINITION. The storageless shuffle: SHUFFLE (43_shuffle.md). -/

namespace Sys2Proof.Machine

/-- `HalfBits(count)`: the least `k` with `4^k > count` (R105). `4^16 = 2^32` exceeds every count, so the search over 0 to 16
always finds it. -/
def halfBits (count : Word) : Nat :=
  ((List.range 17).find? fun k => decide (count.toNat < 4 ^ k)).getD 16

/-- `right_mask = 2^k - 1` (R106). -/
def rightMask (k : Nat) : Word := BitVec.ofNat 32 (2 ^ k - 1)

/-- One round: `(left, right) <- (right, left xor (F(right xor seed) and right_mask))`, both from the old values (R106). -/
def feistelRound (k : Nat) (seed : Word) (h : Word × Word) : Word × Word :=
  (h.2, xor32 h.1 (and32 (finalizer (xor32 h.2 seed)) (rightMask k)))

/-- The halves of an index: `left` the bits 2k-1 to k, `right` the bits k-1 to 0 (R106). -/
def splitHalves (k : Nat) (x : Word) : Word × Word :=
  (and32 (shr32 x k) (rightMask k), and32 x (rightMask k))

/-- `left * 2^k + right`, with no final swap (R106). -/
def joinHalves (k : Nat) (h : Word × Word) : Word := add32 (shl32 h.1 k) h.2

/-- `Feistel(x, k, seed)`: four equal rounds (R106). -/
def feistel (k : Nat) (seed x : Word) : Word :=
  let h := splitHalves k x
  let h := feistelRound k seed h
  let h := feistelRound k seed h
  let h := feistelRound k seed h
  joinHalves k (feistelRound k seed h)

/-- The cycle walk: evaluate the network at least once, until the value is below `count` (R107). -/
def cycleWalk (count seed : Word) (k : Nat) (fuel : Nat) (x : Word) : Option Word :=
  match fuel with
  | 0 => none
  | n + 1 => if ult (feistel k seed x) count then some (feistel k seed x) else cycleWalk count seed k n (feistel k seed x)

/-- `Shuffle(index, count, seed)`, for `index < count` (R107), with the number of evaluations that R107 proves sufficient,
`1 + (4^k - count)` (log 6). -/
def shuffleIndex (index count seed : Word) : Option Word :=
  cycleWalk count seed (halfBits count) (1 + (4 ^ halfBits count - count.toNat)) index

/-- The outcome of the cycle walk written to `RES`; a walk that never ends would be a hang (R166). -/
def finishWalk (s : State) (walked : Option Word) : Result :=
  match walked with
  | some x => .next (s.setRes x)
  | none => .fault .hang

/-- `RES <- Shuffle(ARG0, ARG1, ARG2)` (R108). -/
def walkInto (s : State) : Result := finishWalk s (shuffleIndex s.arg0 s.arg1 s.arg2)

/-- SHUFFLE (R108): an index that is not below the count is refused with `SHUFFLE_RANGE`. -/
def execShuffle (s : State) : Result :=
  acceptCommand .shuffle (fun s =>
    if ult s.arg0 s.arg1 then walkInto s else refuseCommand .shuffleRange .shuffle s) s

end Sys2Proof.Machine
end

