-- ==== Sys2Proof/Machine/System.lean ====
section
/-! DEFINITION. The system command: CLRERR (44_system.md). -/

namespace Sys2Proof.Machine

/-- CLRERR (R115): the only command that runs while the engine is faulted (R49 step 1); when not faulted, legal too. -/
def execClrErr (s : State) : Result := .next s.clearFault

end Sys2Proof.Machine
end

