-- ==== Sys2Proof/Machine/Dispatch.lean ====
section
/-! DEFINITION. The meaning of each command (R47): what a write of its command word to `CMD` does (R49). -/

namespace Sys2Proof.Machine

def exec (i : Instr) (s : State) : Host.Outcome State Fault Refusal :=
  match i with
  | .seed => Sys2Proof.Machine.execSeed s
  | .ldst => Sys2Proof.Machine.execLdst s
  | .clrErr => Sys2Proof.Machine.execClrErr s
  | .mix32 => Sys2Proof.Machine.execMix32 s
  | .advance => Sys2Proof.Machine.execAdvance s
  | .u32To => Sys2Proof.Machine.execU32To s
  | .u32In => Sys2Proof.Machine.execU32In s
  | .s32In => Sys2Proof.Machine.execS32In s
  | .oneIn => Sys2Proof.Machine.execOneIn s
  | .unitFromBits => Sys2Proof.Machine.execUnitFromBits s
  | .eunitFromBits => Sys2Proof.Machine.execEunitFromBits s
  | .floatUnit => Sys2Proof.Machine.execFloatUnit s
  | .floatEunit => Sys2Proof.Machine.execFloatEunit s
  | .shuffle => Sys2Proof.Machine.execShuffle s

end Sys2Proof.Machine
end

