-- ==== Sys2Proof/Machine/Port.lean ====
section
/-! DEFINITION. The register port: what one transaction of the host does (R6, R32, R33, R40, R49, R160). -/

namespace Sys2Proof.Machine

/-- What the dispatch does with a decoded command word `w` (R49): a word that names a command runs it; any other word is
refused. -/
def dispatch (decoded : Except DecodeError Instr) (w : Word) (s : State) : Result :=
  match decoded with
  | .ok i => exec i s
  | .error _ => .next (refuseWord w s)

/-- A write of the command word `w` to `CMD` (R49). -/
def writeCmd (w : Word) (s : State) : Result := dispatch (decode w) w s

/-- `PortWrite(i, v)` (R33). -/
def portWrite (i : RegIndex) (v : Word) (s : State) : Result :=
  if i = 0 then writeCmd v s else .next (s.writeReg i v)

/-- The host has the transactions `rest` still to issue (R40; log 1). -/
def State.withPending (rest : List Transaction) (s : State) : State := { s with pending := rest }

/-- One transaction, complete before the next is accepted (R40). -/
def transact (t : Transaction) (s : State) : Result :=
  match t with
  | .read i => .next (s.logRead (s.portRead i))
  | .write i v => portWrite i v s
  | .reset => .next s.resetEngine

/-- Reset is the only way out of a command that never ends (R163, R166): where the host's next act is a reset, the hung
command is abandoned and the state is the reset state (log 5). -/
def abandonIfReset (rest : List Transaction) (s : State) (o : Result) : Result :=
  match o with
  | .fault .hang =>
    match rest with
    | .reset :: later => .next (s.withPending later).resetEngine
    | _ => .fault .hang
  | .next t => .next t
  | .refused r => .refused r

/-- The port accepts the transaction `t`, with `rest` still to come (R40). -/
def acceptTransaction (t : Transaction) (rest : List Transaction) (s : State) : Result :=
  abandonIfReset rest (s.withPending rest) (transact t (s.withPending rest))

/-- What the port accepts next: the oldest transaction not yet accepted, or nothing, and then nothing changes (R6; log 3). -/
def acceptNext (s : State) : Result :=
  match s.pending with
  | [] => .next s
  | t :: rest => acceptTransaction t rest s

/-- The host's next act is to write `w` to `CMD`. -/
def State.issueCommand (w : Word) (s : State) : State := s.withPending (.write 0 w :: s.pending)

end Sys2Proof.Machine
end

