-- ==== Sys2Proof/Machine/Step.lean ====
section
/-! DEFINITION. One step of the machine: one transaction of the host, or one reset (R6). -/

namespace Sys2Proof.Machine

/-- One step (R6). -/
def step (s : State) : Host.Outcome State Fault Refusal := acceptNext s

/-- The state `s` with the command word of `nbits` bits `w` as the host's next transaction, a write to `CMD` (R49): the engine
fetches nothing (R12), so this stands for the host presenting the command (log 1). -/
def State.withFetchWord (s : State) (nbits w : Nat) : State := s.issueCommand (tableWord nbits w)

end Sys2Proof.Machine
end

