-- ==== Sys2Proof/Machine/Assembler.lean ====
section
/-! DEFINITION. The notation of host programs (R54, R55): lines and pseudo-instructions as lists of transactions. Nothing of
the engine depends on it (92_eei_decisions.md D27). -/

namespace Sys2Proof.Machine

/-- The index of each named register (R31). -/
def regCmd : RegIndex := 0
/-- `STATUS` (R31). -/
def regStatus : RegIndex := 1
/-- `ARG0` (R31). -/
def regArg0 : RegIndex := 2
/-- `ARG1` (R31). -/
def regArg1 : RegIndex := 3
/-- `ARG2` (R31). -/
def regArg2 : RegIndex := 4
/-- `RES` (R31). -/
def regRes : RegIndex := 5
/-- `S0` (R31). -/
def regS0 : RegIndex := 6
/-- `S1` (R31). -/
def regS1 : RegIndex := 7
/-- `FINFO` (R31). -/
def regFinfo : RegIndex := 8

/-- `cmd <MNEMONIC>` (R54). -/
def cmdLine (i : Instr) : Transaction := .write regCmd (encode i)

/-- `cmdw <value>`: a raw command word (R54). -/
def cmdwLine (w : Word) : Transaction := .write regCmd w

/-- `cmd U32_ANY` is `cmd ADVANCE` (R55). -/
def cmdU32Any : Transaction := cmdLine .advance

/-- `cmd DICE` is `cmd U32_TO` (R55). -/
def cmdDice : Transaction := cmdLine .u32To

/-- The pseudo-instructions (R55). The signed operands of `s32In` are given by their patterns, `unsigned(lo)` and
`unsigned(hi)`. -/
inductive Pseudo where
  | seed (v : Word)
  | ldst (a b : Word)
  | mix32 (v : Word)
  | advance
  | u32To (b : Word)
  | dice (n : Word)
  | u32In (lo hi : Word)
  | s32In (lo hi : Word)
  | oneIn (c : Word)
  | unitFromBits (v : Word)
  | eunitFromBits (v : Word)
  | floatUnit
  | floatEunit
  | shuffle (i n s : Word)
  | getstate
  | status
deriving DecidableEq, Repr

/-- The expansion of each pseudo-instruction (R55). -/
def Pseudo.expand (p : Pseudo) : List Transaction :=
  match p with
  | .seed v => [.write regArg0 v, cmdLine .seed]
  | .ldst a b => [.write regArg0 a, .write regArg1 b, cmdLine .ldst]
  | .mix32 v => [.write regArg0 v, cmdLine .mix32, .read regRes]
  | .advance => [cmdLine .advance, .read regRes]
  | .u32To b => [.write regArg0 b, cmdLine .u32To, .read regRes]
  | .dice n => [.write regArg0 n, cmdDice, .read regRes]
  | .u32In lo hi => [.write regArg0 lo, .write regArg1 hi, cmdLine .u32In, .read regRes]
  | .s32In lo hi => [.write regArg0 lo, .write regArg1 hi, cmdLine .s32In, .read regRes]
  | .oneIn c => [.write regArg0 c, cmdLine .oneIn, .read regRes]
  | .unitFromBits v => [.write regArg0 v, cmdLine .unitFromBits, .read regRes]
  | .eunitFromBits v => [.write regArg0 v, cmdLine .eunitFromBits, .read regRes]
  | .floatUnit => [cmdLine .floatUnit, .read regRes]
  | .floatEunit => [cmdLine .floatEunit, .read regRes]
  | .shuffle i n s => [.write regArg0 i, .write regArg1 n, .write regArg2 s, cmdLine .shuffle, .read regRes]
  | .getstate => [.read regS0, .read regS1]
  | .status => [.read regStatus]

end Sys2Proof.Machine
end

