-- ==== Sys2Proof/Config.lean ====
section
/-! DEFINITION. What is fixed for the machine and does not change as it runs.

The engine has no value that an implementation may choose: `LATENCY` (R5, R167) and `PORT_BASE` (R35) are open, but no rule
depends on either, so neither is an argument of the model (log 10). The constants of the algorithms (R4) stand beside the
operations that use them, in Machine/Ops.lean, Machine/Integer.lean, Machine/Float.lean and Machine/Shuffle.lean.

The only open values are the primitives the HOST supplies to the functions of 48_host_layer.md, which are not in the
hardware (R120). Each is a constant with no body: nothing can be proved of its values (log 14). -/

namespace Sys2Proof

/-- `NREG`: the number of locations of the register port (R5). -/
def Config.nreg : Nat := 16

/-- `CMDW`: the width of a command word (R5). -/
def Config.cmdw : Nat := 32

/-- The host's binary32 addition; the source gives no rule for it (R120). -/
opaque Config.fadd : Word → Word → Word

/-- The host's binary32 subtraction (R120). -/
opaque Config.fsub : Word → Word → Word

/-- The host's binary32 multiplication (R120). -/
opaque Config.fmul : Word → Word → Word

/-- The host's sine (R120). -/
opaque Config.fsin : Word → Word

/-- The host's cosine (R120). -/
opaque Config.fcos : Word → Word

/-- The host's square root (R120). -/
opaque Config.fsqrt : Word → Word

/-- The host's inverse square root (R120). -/
opaque Config.frsqrt : Word → Word

/-- The host's dot product of two 3-component vectors (R120). -/
opaque Config.fdot3 : Word × Word × Word → Word × Word × Word → Word

/-- Whether the host takes a dot product that is no number for negative: R125 compares numbers, and the source gives no rule for
special values (R120). -/
opaque Config.nanNegative : Word → Bool

/-- `TAU`, which the source uses without a value (R120, 91_not_in_source.md N10). -/
opaque Config.tau : Word

end Sys2Proof
end

