-- ==== Sys2Proof/Machine/HostLayer.lean ====
section
/-! DEFINITION. The host layer (48_host_layer.md): software that runs on the host, built from engine commands. None of it is
engine behaviour (R120) and no step calls it. The floating-point operations are the host's and are constants of Config with no
body (log 14). A vector is a tuple of binary32 patterns. -/

namespace Sys2Proof.Machine

/-- How a source-level call ends (R128). -/
inductive CallOutcome where
  /-- The value, and the engine after the call. -/
  | value (v : Word) (s : State)
  /-- A precondition violation: the word read from `FINFO`, and the engine after the host's `CLRERR`. -/
  | violation (finfo : Word) (s : State)
  /-- The command never completed (R166). -/
  | stuck
deriving DecidableEq, Repr

/-- Writes up to three arguments to `ARG0`, `ARG1`, `ARG2`, in the source's argument order (R48, R128). -/
def writeArgs (args : List Word) (s : State) : State :=
  match args with
  | [] => s
  | [a] => s.writeReg regArg0 a
  | [a, b] => (s.writeReg regArg0 a).writeReg regArg1 b
  | a :: b :: c :: _ => ((s.writeReg regArg0 a).writeReg regArg1 b).writeReg regArg2 c

/-- The `ERR` field of a word read from `STATUS`, bits 7:4 (R18). -/
def errOfStatus (w : Word) : BitVec 4 := w.extractLsb' 4 4

/-- What the host does after the command: it reads `STATUS`; with `ERR` not 0 it reads `FINFO` and issues `CLRERR`, else it
reads `RES` (R128). -/
def readOutcome (s : State) : CallOutcome :=
  if errOfStatus (s.portRead regStatus) = 0 then .value (s.portRead regRes) s
  else
    match portWrite regCmd (encode .clrErr) s with
    | .next t => .violation (s.portRead regFinfo) t
    | _ => .stuck

/-- How the call goes on from the outcome of its `CMD` write (R128). -/
def finishCall (o : Result) : CallOutcome :=
  match o with
  | .next t => readOutcome t
  | _ => .stuck

/-- A source-level call on the resident stream (R128). -/
def hostCall (i : Instr) (args : List Word) (s : State) : CallOutcome :=
  finishCall (portWrite regCmd (encode i) (writeArgs args s))

/-- The draws of a host function, each one command, in the order written (48_host_layer.md section 3; log 14). `none` when a
draw gives no value. -/
def drawFloats (draws : List Instr) (s : State) : Option (List Word × State) :=
  match draws with
  | [] => some ([], s)
  | i :: rest =>
    match hostCall i [] s with
    | .value u s' =>
      match drawFloats rest s' with
      | some (us, t) => some (u :: us, t)
      | none => none
    | _ => none

/-- Binary32 1.0 (93_implementation_defined.md G2). -/
def fOne : Word := 0x3F800000

/-- Binary32 2.0 (93_implementation_defined.md G2). -/
def fTwo : Word := 0x40000000

/-- Flips the sign of a binary32 pattern: bit 31 (00_scope.md section 6.1). -/
def flipSign (x : Word) : Word := xor32 x 0x80000000

/-- A binary32 pattern that is no number: all exponent bits set and a fraction that is not 0 (00_scope.md section 6.1; log 15). -/
def f32IsNaN (x : Word) : Bool := decide (0x7F800000 < x.toNat % 2 ^ 31)

/-- The place of a number among the binary32 numbers: its magnitude bits, with the sign of bit 31. Both zeros are at 0 (log 15). -/
def f32Rank (x : Word) : Int :=
  if x.toNat / 2 ^ 31 = 0 then ((x.toNat % 2 ^ 31 : Nat) : Int) else -((x.toNat % 2 ^ 31 : Nat) : Int)

/-- `x <= y` as binary32 numbers; a pattern that is no number stands in no order (log 15). -/
def f32Le (x y : Word) : Bool := !f32IsNaN x && !f32IsNaN y && decide (f32Rank x ≤ f32Rank y)

/-- "Is negative" of a dot product (R125): below zero, so of a zero of either sign it is false. Of a pattern that is no number
the host says (log 14). -/
def f32Negative (x : Word) : Bool := if f32IsNaN x then Config.nanNegative x else decide (f32Rank x < 0)

/-- `float_in(state, lo, hi)` (R121), for `lo <= hi`: an inverted range is undefined, so a call takes the order of its bounds as a
hypothesis (93_implementation_defined.md U4). -/
def floatIn (lo hi : Word) (_ordered : f32Le lo hi = true) (s : State) : Option (Word × State) :=
  match drawFloats [.floatUnit] s with
  | some ([u], t) => some (Config.fadd lo (Config.fmul (Config.fsub hi lo) u), t)
  | _ => none

/-- `point_in_unit_circle(state)` (R122): the angle is drawn first; x is the sine. -/
def pointInUnitCircle (s : State) : Option ((Word × Word) × State) :=
  match drawFloats [.floatEunit, .floatUnit] s with
  | some ([e, u], t) =>
    let angle := Config.fmul e Config.tau
    let radius := Config.fsqrt u
    some ((Config.fmul (Config.fsin angle) radius, Config.fmul (Config.fcos angle) radius), t)
  | _ => none

/-- `point_on_unit_circle(state)` (R123). -/
def pointOnUnitCircle (s : State) : Option ((Word × Word) × State) :=
  match drawFloats [.floatEunit] s with
  | some ([e], t) =>
    let angle := Config.fmul e Config.tau
    some ((Config.fsin angle, Config.fcos angle), t)
  | _ => none

/-- The point R124 makes of its two draws. -/
def spherePoint (u1 u2 : Word) : Word × Word × Word :=
  let a := Config.fmul u1 Config.tau
  let b := Config.fsub (Config.fmul u2 fTwo) fOne
  let scale := Config.frsqrt (Config.fadd fOne (Config.fmul b b))
  (Config.fmul (Config.fsin a) scale, Config.fmul (Config.fcos a) scale, Config.fmul b scale)

/-- `point_on_unit_sphere(state)` (R124). -/
def pointOnUnitSphere (s : State) : Option ((Word × Word × Word) × State) :=
  match drawFloats [.floatUnit, .floatUnit] s with
  | some ([u1, u2], t) => some (spherePoint u1 u2, t)
  | _ => none

/-- "Flip sign of all components if the sampled point's dot product with `normal` is negative" (R125). -/
def orientTo (normal p : Word × Word × Word) : Word × Word × Word :=
  if f32Negative (Config.fdot3 p normal) then (flipSign p.1, flipSign p.2.1, flipSign p.2.2) else p

/-- `point_on_unit_hemisphere(state, normal)` (R125). -/
def pointOnUnitHemisphere (normal : Word × Word × Word) (s : State) : Option ((Word × Word × Word) × State) :=
  match pointOnUnitSphere s with
  | some (p, t) => some (orientTo normal p, t)
  | none => none

/-- `random_quaternion(state)` (R126), components x, y, z, w. -/
def randomQuaternion (s : State) : Option ((Word × Word × Word × Word) × State) :=
  match drawFloats [.floatUnit, .floatUnit, .floatUnit] s with
  | some ([u1, u2, u3], t) =>
    let r := Config.fsqrt (Config.fsub fOne u1)
    let q := Config.fsqrt u1
    let a := Config.fmul Config.tau u2
    let b := Config.fmul Config.tau u3
    some ((Config.fmul r (Config.fsin a), Config.fmul r (Config.fcos a), Config.fmul q (Config.fsin b),
      Config.fmul q (Config.fcos b)), t)
  | _ => none

end Sys2Proof.Machine
end

