-- ==== Sys2Proof/Safety.lean ====
section
/-! DEFINITION. What counts as a good state and a safe step, in the terms the statements use. -/

namespace Sys2Proof.Machine

/-- The pair `(0, 0)`, which is no generator state (R11, R22). -/
def Gen.zero : Gen := ⟨0, 0⟩

/-- The invariant of the generator state: while `SEEDED = 1` it is not `(0, 0)` (R11). -/
def State.GenOk (s : State) : Prop := s.seeded = true → s.gen ≠ Gen.zero

/-- While `SEEDED = 0`, `S0` and `S1` hold their reset value (R13). -/
def State.UnseededIsZero (s : State) : Prop := s.seeded = false → s.gen = Gen.zero

/-- The fault registers: `ERR` is 0 to 6 (R16) and `FINFO = 0` whenever `ERR = 0` (R143). -/
def State.FaultRegsOk (s : State) : Prop := s.err.toNat ≤ 6 ∧ (s.err = 0 → s.finfo = 0)

/-- The invariant of the engine: what R11, R13, R16 and R143 say of every state a run reaches. -/
structure State.Inv (s : State) : Prop where
  genOk : s.GenOk
  unseededIsZero : s.UnseededIsZero
  faultRegsOk : s.FaultRegsOk

/-- The rejection loop from `g` with threshold `th` ends at its raw word number `n` (from 0): that one is not below the
threshold and all before it are (R76). -/
def AcceptedAt (th : Word) (g : Gen) (n : Nat) : Prop :=
  (∀ j, j < n → ult (Gen.next^[j] g).raw th = true) ∧ ult (Gen.next^[n] g).raw th = false

/-- The cycle walk from `x` ends after its evaluation number `n` (from 1) of the network: that value is below the count and all
before it are not (R107). -/
def ReturnsAt (count seed : Word) (k : Nat) (x : Word) (n : Nat) : Prop :=
  1 ≤ n ∧ (∀ j, 1 ≤ j → j < n → ult ((feistel k seed)^[j] x) count = false) ∧
    ult ((feistel k seed)^[n] x) count = true

/-- The seven state-consuming commands, as R13 lists them. -/
def stateConsuming : List Instr := [.advance, .u32To, .u32In, .s32In, .oneIn, .floatUnit, .floatEunit]

/-- The fault of a command in a state that is not faulted, written from the table of causes (R141) and the priority (R142),
independently of the meanings: `none` where the command raises none. -/
def faultCause (i : Instr) (s : State) : Option (BitVec 4) :=
  if i ∈ stateConsuming ∧ s.seeded = false then some 2
  else
    match i with
    | .seed => none
    | .ldst => if s.arg0 = 0 ∧ s.arg1 = 0 then some 6 else none
    | .clrErr => none
    | .mix32 => none
    | .advance => none
    | .u32To => if s.arg0 = 0 then some 3 else none
    | .u32In =>
      if s.arg1.toNat < s.arg0.toNat then some 4
      else if s.arg0 = 0 ∧ s.arg1 = 0xFFFFFFFF then some 3 else none
    | .s32In =>
      if s.arg1.toInt < s.arg0.toInt then some 4
      else if s.arg0 = 0x80000000 ∧ s.arg1 = 0x7FFFFFFF then some 3 else none
    | .oneIn => none
    | .unitFromBits => none
    | .eunitFromBits => none
    | .floatUnit => none
    | .floatEunit => none
    | .shuffle => if s.arg1.toNat ≤ s.arg0.toNat then some 5 else none

/-- Which operand registers a command reads, by the table of R48. -/
def argsRead (i : Instr) : List RegIndex :=
  match i with
  | .seed => [2]
  | .ldst => [2, 3]
  | .clrErr => []
  | .mix32 => [2]
  | .advance => []
  | .u32To => [2]
  | .u32In => [2, 3]
  | .s32In => [2, 3]
  | .oneIn => [2]
  | .unitFromBits => [2]
  | .eunitFromBits => [2]
  | .floatUnit => []
  | .floatEunit => []
  | .shuffle => [2, 3, 4]

/-- What a binary32 pattern that is no infinity and no NaN stands for (93_implementation_defined.md G2). -/
def f32Value (x : Word) : ℚ :=
  let sign : ℚ := if x.toNat / 2 ^ 31 = 0 then 1 else -1
  let e : Nat := x.toNat / 2 ^ 23 % 2 ^ 8
  let f : Nat := x.toNat % 2 ^ 23
  if e = 0 then sign * f * (2 : ℚ) ^ (-149 : ℤ) else sign * ((2 ^ 23 + f : Nat) : ℚ) * (2 : ℚ) ^ ((e : ℤ) - 150)

/-- A binary32 pattern that is no infinity and no NaN. -/
def f32Finite (x : Word) : Prop := x.toNat / 2 ^ 23 % 2 ^ 8 ≠ 255

/-- A step that neither stops nor refuses (R166, R168). -/
def State.StepsOn (s : State) : Prop := ∃ t, step s = .next t

end Sys2Proof.Machine
end

