-- ==== Sys2Proof/Certificates/Slice0/Obligations.lean ====
section
/-! DEFINITION. The statements for the provers. Each docstring names the rule of spec/ it formalises. -/

open Sys2Proof Sys2Proof.Machine

/-! ## Encoding (30_encoding.md) -/

/-- R47: a command word selects a command exactly when it equals the word of the opcode map, and decoding an encoded
command gives it back. -/
def Obligations.DecodeAndEncodeAgree : Prop :=
  (∀ i : Instr, decode (encode i) = .ok i) ∧
  ∀ (w : Word) (i : Instr), decode w = .ok i ↔
    (w, i) ∈ ([(0x00000001, .seed), (0x00000002, .ldst), (0x00000003, .clrErr), (0x00000004, .mix32),
      (0x00000010, .advance), (0x00000011, .u32To), (0x00000012, .u32In), (0x00000013, .s32In), (0x00000014, .oneIn),
      (0x00000020, .unitFromBits), (0x00000021, .eunitFromBits), (0x00000022, .floatUnit), (0x00000023, .floatEunit),
      (0x00000030, .shuffle)] : List (Word × Instr))

/-- R45, R47: words written out from their fields `rsv` (24 bits) and `op` (8 bits), one per family of the table. -/
def Obligations.SpelledWordsDecode : Prop :=
  decode ((0 : BitVec 24) ++ (0x01 : BitVec 8)) = .ok .seed ∧
  decode ((0 : BitVec 24) ++ (0x03 : BitVec 8)) = .ok .clrErr ∧
  decode ((0 : BitVec 24) ++ (0x13 : BitVec 8)) = .ok .s32In ∧
  decode ((0 : BitVec 24) ++ (0x21 : BitVec 8)) = .ok .eunitFromBits ∧
  decode ((0 : BitVec 24) ++ (0x30 : BitVec 8)) = .ok .shuffle ∧
  decode ((1 : BitVec 24) ++ (0x10 : BitVec 8)) = .error .reservedBits

/-- R50: every command word is one of the 14 legal words or illegal; of the 256 opcodes 242 are unassigned; an illegal word
written while not faulted raises `ILLEGAL_CMD` (code 1) with `FINFO` the word, and changes nothing else of the engine. -/
def Obligations.IllegalWordsFault : Prop :=
  (∀ w : Word, wordLegal w = true ↔ ∃ i : Instr, decode w = .ok i) ∧
  ((List.range 256).filter opUnassigned).length = 242 ∧
  ∀ (s : State) (w : Word) (rest : List Transaction), s.pending = .write 0 w :: rest → s.err = 0 → wordLegal w = false →
    step s = .next { s with pending := rest, err := 1, finfo := w }

/-! ## The step and the port (20_memory.md) -/

/-- R40, R49: a step whose next transaction writes the word of a command to `CMD` is that command, run to its end; and where
the command never ends the step stops as a hang, unless the host's next act is a reset, which abandons it (R163). -/
def Obligations.StepRunsIssuedCommand : Prop :=
  ∀ (s : State) (w : Word) (i : Instr) (rest : List Transaction), s.pending = .write 0 w :: rest → decode w = .ok i →
    (∀ t, exec i { s with pending := rest } = .next t → step s = .next t) ∧
    (exec i { s with pending := rest } = .fault .hang → rest.head? ≠ some .reset → step s = .fault .hang) ∧
    ∀ later, exec i { s with pending := rest } = .fault .hang → rest = .reset :: later →
      step s = .next { State.reset with pending := later, readLog := s.readLog }

/-- The entry point of the host: after `withFetchWord` the next step is the command of the word, run to its end; and where the
command never ends the step stops as a hang, unless a reset stands at the head of the pending list, which abandons it (log 5). -/
def Obligations.IssuedWordIsNextStep : Prop :=
  ∀ (s : State) (i : Instr),
    (∀ t, exec i s = .next t → step (s.withFetchWord 32 (encode i).toNat) = .next t) ∧
    (exec i s = .fault .hang → s.pending.head? ≠ some .reset →
      step (s.withFetchWord 32 (encode i).toNat) = .fault .hang) ∧
    ∀ later, exec i s = .fault .hang → s.pending = .reset :: later →
      step (s.withFetchWord 32 (encode i).toNat) = .next { State.reset with pending := later, readLog := s.readLog }

/-- R32: what each index reads as; a read changes no state of the engine. That the value is put at the head of `readLog` is
the model's choice (log 2). -/
def Obligations.PortReadsRegisters : Prop :=
  (∀ s : State, s.portRead 0 = 0 ∧ (s.portRead 1).toNat = s.err.toNat * 16 + s.seeded.toNat ∧ s.portRead 2 = s.arg0 ∧
    s.portRead 3 = s.arg1 ∧ s.portRead 4 = s.arg2 ∧ s.portRead 5 = s.res ∧ s.portRead 6 = s.s0 ∧ s.portRead 7 = s.s1 ∧
    s.portRead 8 = s.finfo ∧ ∀ i : RegIndex, 9 ≤ i.val → s.portRead i = 0) ∧
  ∀ (s : State) (i : RegIndex) (rest : List Transaction), s.pending = .read i :: rest →
    step s = .next { s with pending := rest, readLog := s.portRead i :: s.readLog }

/-- R33, R34: a write to `ARG0`, `ARG1`, `ARG2` stores, faulted or not; a write to a read-only or reserved index changes nothing
and raises no fault. -/
def Obligations.PortWritesRegisters : Prop :=
  ∀ (s : State) (v : Word) (rest : List Transaction),
    (s.pending = .write 2 v :: rest → step s = .next { s with pending := rest, arg0 := v }) ∧
    (s.pending = .write 3 v :: rest → step s = .next { s with pending := rest, arg1 := v }) ∧
    (s.pending = .write 4 v :: rest → step s = .next { s with pending := rest, arg2 := v }) ∧
    ∀ i : RegIndex, (i.val = 1 ∨ 5 ≤ i.val) → s.pending = .write i v :: rest → step s = .next { s with pending := rest }

/-- R34: a read of a reserved index gives 0, and a write to a reserved index or to a read-only register changes no register and
raises no fault. -/
def Obligations.ReservedLocationsAreInert : Prop :=
  ∀ (s : State) (i : RegIndex) (v : Word),
    (9 ≤ i.val → s.portRead i = 0) ∧ ((i.val = 1 ∨ 5 ≤ i.val) → portWrite i v s = .next s)

/-- The model's choice for a step in which the host issues nothing (log 3): nothing changes. -/
def Obligations.IdleStepChangesNothing : Prop :=
  ∀ s : State, s.pending = [] → step s = .next s

/-! ## Reset (10_state.md, 70_reset_and_hazards.md) -/

/-- R22: the value of every piece of engine state after reset, in the reset state and after a reset step from any state. -/
def Obligations.ResetRegisterValues : Prop :=
  (∀ (s : State) (rest : List Transaction), s.pending = .reset :: rest →
    ∃ t, step s = .next t ∧ t.s0 = 0 ∧ t.s1 = 0 ∧ t.seeded = false ∧ t.arg0 = 0 ∧ t.arg1 = 0 ∧ t.arg2 = 0 ∧ t.res = 0 ∧
      t.err = 0 ∧ t.finfo = 0) ∧
  State.reset.s0 = 0 ∧ State.reset.s1 = 0 ∧ State.reset.seeded = false ∧ State.reset.arg0 = 0 ∧ State.reset.arg1 = 0 ∧
    State.reset.arg2 = 0 ∧ State.reset.res = 0 ∧ State.reset.err = 0 ∧ State.reset.finfo = 0

/-- R13: `SEEDED` is set only by SEED or LDST and cleared only by reset. The premise is R11's invariant: without it a command
could hang and be abandoned by a reset behind it (log 5). -/
def Obligations.SeededChangesOnlyBySeedLdstReset : Prop :=
  ∀ s t : State, s.GenOk → step s = .next t → s.seeded ≠ t.seeded →
    (t.seeded = true ∧ ∃ rest, s.pending = .write 0 (encode .seed) :: rest ∨ s.pending = .write 0 (encode .ldst) :: rest) ∨
    (t.seeded = false ∧ ∃ rest, s.pending = .reset :: rest)

/-! ## Faults (60_exceptions.md) -/

/-- R141, R142: in a state that is not faulted, each command raises exactly the fault of the table of causes, the first in the
order of priority, with `FINFO` its command word and nothing else changed; where no cause holds it raises none. -/
def Obligations.FaultsAreThoseOfTheTable : Prop :=
  ∀ (i : Instr) (s : State), s.err = 0 →
    (∀ c, faultCause i s = some c → exec i s = .next { s with err := c, finfo := encode i }) ∧
    (faultCause i s = none → ∀ t, exec i s = .next t → t.err = 0)

/-- R148: a command that faults has had no effect except fault entry. -/
def Obligations.FaultsArePrecise : Prop :=
  ∀ (i : Instr) (s t : State), s.err = 0 → exec i s = .next t → t.err ≠ 0 →
    t = { s with err := t.err, finfo := encode i } ∧ t.err.toNat ≤ 6

/-- R142: an unseeded engine given U32_TO with bound 0, or U32_IN or S32_IN with an inverted or the full range, reports `UNSEEDED`;
seeded, these report `ZERO_BOUND` for the bound 0 and the full ranges and `INVERTED_RANGE` for the inverted ones. -/
def Obligations.UnseededComesFirst : Prop :=
  ∀ s : State, s.err = 0 →
    (s.arg0 = 0 →
      (s.seeded = false → exec .u32To s = .next { s with err := 2, finfo := 0x00000011 }) ∧
      (s.seeded = true → exec .u32To s = .next { s with err := 3, finfo := 0x00000011 })) ∧
    (s.arg1.toNat < s.arg0.toNat →
      (s.seeded = false → exec .u32In s = .next { s with err := 2, finfo := 0x00000012 }) ∧
      (s.seeded = true → exec .u32In s = .next { s with err := 4, finfo := 0x00000012 })) ∧
    (s.arg0 = 0 → s.arg1 = 0xFFFFFFFF →
      (s.seeded = false → exec .u32In s = .next { s with err := 2, finfo := 0x00000012 }) ∧
      (s.seeded = true → exec .u32In s = .next { s with err := 3, finfo := 0x00000012 })) ∧
    (s.arg1.toInt < s.arg0.toInt →
      (s.seeded = false → exec .s32In s = .next { s with err := 2, finfo := 0x00000013 }) ∧
      (s.seeded = true → exec .s32In s = .next { s with err := 4, finfo := 0x00000013 })) ∧
    (s.arg0 = 0x80000000 → s.arg1 = 0x7FFFFFFF →
      (s.seeded = false → exec .s32In s = .next { s with err := 2, finfo := 0x00000013 }) ∧
      (s.seeded = true → exec .s32In s = .next { s with err := 3, finfo := 0x00000013 }))

/-- R144: while faulted every command word but exactly `0x00000003` is discarded, whether or not it names a command: nothing
changes and the first fault is kept; reads, and writes to the operand registers, work as always. That the step of a read puts
the value at the head of `readLog` is the model's choice (log 2). -/
def Obligations.FaultedEngineDiscards : Prop :=
  ∀ (s : State) (rest : List Transaction), s.err ≠ 0 →
    (∀ w : Word, w ≠ 0x00000003 → s.pending = .write 0 w :: rest → step s = .next { s with pending := rest }) ∧
    (∀ i : RegIndex, s.pending = .read i :: rest →
      step s = .next { s with pending := rest, readLog := s.portRead i :: s.readLog }) ∧
    ∀ v : Word,
      (s.pending = .write 2 v :: rest → step s = .next { s with pending := rest, arg0 := v }) ∧
      (s.pending = .write 3 v :: rest → step s = .next { s with pending := rest, arg1 := v }) ∧
      (s.pending = .write 4 v :: rest → step s = .next { s with pending := rest, arg2 := v })

/-- R115: CLRERR clears `ERR` and `FINFO` and changes nothing else, in every state; where the fault registers meet their
invariant (R143) and `ERR = 0` it changes nothing; it is the only command a faulted engine executes, and the word `0x00000103`
is discarded like any other. -/
def Obligations.ClrErrClearsFault : Prop :=
  (∀ s : State, exec .clrErr s = .next { s with err := 0, finfo := 0 }) ∧
  (∀ s : State, s.FaultRegsOk → s.err = 0 → exec .clrErr s = .next s) ∧
  (∀ (i : Instr) (s : State), s.err ≠ 0 → i ≠ .clrErr → exec i s = .next s) ∧
  ∀ (s : State) (rest : List Transaction), s.err ≠ 0 → s.pending = .write 0 0x00000103 :: rest →
    step s = .next { s with pending := rest }

/-- R145: CLRERR clears `ERR` and `FINFO` and restores nothing; reset leaves the faulted state too; no other step does. -/
def Obligations.OnlyClrErrAndResetLeaveFault : Prop :=
  (∀ (s : State) (rest : List Transaction), s.pending = .write 0 0x00000003 :: rest →
    step s = .next { s with pending := rest, err := 0, finfo := 0 }) ∧
  (∀ (s : State) (rest : List Transaction), s.pending = .reset :: rest →
    ∃ t, step s = .next t ∧ t.err = 0 ∧ t.finfo = 0) ∧
  ∀ s t : State, step s = .next t → s.err ≠ 0 → t.err ≠ s.err →
    t.err = 0 ∧ t.finfo = 0 ∧ ∃ rest, s.pending = .write 0 0x00000003 :: rest ∨ s.pending = .reset :: rest

/-! ## State and core advance (40_core_advance.md) -/

/-- R60: the finalizer as arithmetic on natural numbers below `2^32`: `a`, `b` and `c` are the values of `z` after its second,
third and fourth lines. -/
def Obligations.FinalizerFormula : Prop :=
  ∀ x : Word, ∃ a b c : Nat,
    a = (x.toNat + 0x9e3779b9) % 2 ^ 32 ∧
    b = (a ^^^ a / 2 ^ 15) * 0x85ebca6b % 2 ^ 32 ∧
    c = (b ^^^ b / 2 ^ 13) * 0xc2b2ae3d % 2 ^ 32 ∧
    (finalizer x).toNat = c ^^^ c / 2 ^ 16

/-- R61: `F` is a bijection, `F(0) = 0x0c30df27`, and the only argument with `F(x) = 0` is `0x61c88647`. -/
def Obligations.FinalizerIsBijective : Prop :=
  Function.Bijective finalizer ∧ finalizer 0 = 0x0c30df27 ∧ ∀ x : Word, finalizer x = 0 ↔ x = 0x61c88647

/-- R62: MIX32 completes in every state that is not faulted, seeded or not, and changes only `RES`; faulted it is discarded; with
the rule's values. -/
def Obligations.MixWritesFinalizer : Prop :=
  (∀ s : State, s.err = 0 → exec .mix32 s = .next { s with res := finalizer s.arg0 }) ∧
  (∀ s : State, s.err ≠ 0 → exec .mix32 s = .next s) ∧
  finalizer 0 = 0x0c30df27 ∧ finalizer 0x61c88647 = 0 ∧ finalizer 0xffffffff = 0xed4c0286 ∧
  finalizer 0xdeadbeef = 0x7124f687

/-- R63: SEED completes in every state that is not faulted, for every seed; the pair is never `(0, 0)`; `S1 = 0` and `S0 = 0` each
happen for one seed. -/
def Obligations.SeedCreatesState : Prop :=
  (∀ s : State, s.err = 0 → exec .seed s =
    .next { s with s1 := finalizer s.arg0, s0 := finalizer (finalizer s.arg0), seeded := true }) ∧
  ∀ x : Word, (finalizer (finalizer x), finalizer x) ≠ (0, 0) ∧ (finalizer x = 0 ↔ x = 0x61c88647) ∧
    (finalizer (finalizer x) = 0 ↔ x = 0xc04c7fc9) ∧ finalizer 0 = 0x0c30df27 ∧ finalizer 0x0c30df27 = 0x7d30beb3 ∧
    finalizer 1 = 0x91e59a66 ∧ finalizer 0x91e59a66 = 0x208c488e

/-- R67: LDST completes for every pair but `(0, 0)`, which is `ZERO_STATE` (code 6) with nothing else changed. -/
def Obligations.LdstLoadsState : Prop :=
  ∀ s : State, s.err = 0 →
    (¬ (s.arg0 = 0 ∧ s.arg1 = 0) → exec .ldst s = .next { s with s0 := s.arg0, s1 := s.arg1, seeded := true }) ∧
    (s.arg0 = 0 → s.arg1 = 0 → exec .ldst s = .next { s with err := 6, finfo := 0x00000002 })

/-- R64, R9: the raw word and the transition of `Advance`, with the library's rotation. -/
def Obligations.AdvanceFormula : Prop :=
  ∀ g : Gen, g.raw = (g.s0 * 0x9E3779BB).rotateLeft 5 * 5 ∧
    g.next = { s0 := g.s0.rotateLeft 26 ^^^ (g.s1 ^^^ g.s0) ^^^ ((g.s1 ^^^ g.s0) <<< 9),
               s1 := (g.s1 ^^^ g.s0).rotateLeft 13 }

/-- R65 items 1 to 3: the transition is linear, a bijection, undone as the rule says; `(0, 0)` is fixed with result 0; the
result is 0 exactly when the old `S0` is. -/
def Obligations.AdvanceIsBijective : Prop :=
  Function.Bijective Gen.next ∧
  (∀ g h : Gen, (Gen.mk (g.s0 ^^^ h.s0) (g.s1 ^^^ h.s1)).next =
    Gen.mk (g.next.s0 ^^^ h.next.s0) (g.next.s1 ^^^ h.next.s1)) ∧
  (∀ g : Gen, let t := rotl32 g.next.s1 19
    let a := rotl32 (g.next.s0 ^^^ t ^^^ (t <<< 9)) 6
    g = { s0 := a, s1 := t ^^^ a }) ∧
  (∀ g : Gen, g.next = Gen.zero ↔ g = Gen.zero) ∧ Gen.zero.raw = 0 ∧ ∀ g : Gen, g.raw = 0 ↔ g.s0 = 0

/-- 93_implementation_defined.md G4 and R82: from every generator state other than `(0, 0)` every raw word is produced within
`2^64 - 1` advances. The spec takes this from general knowledge (R65 item 4); of the model it is provable. -/
def Obligations.EveryRawWordIsProduced : Prop :=
  ∀ (g : Gen) (w : Word), g ≠ Gen.zero → ∃ n, n < 2 ^ 64 - 1 ∧ (Gen.next^[n] g).raw = w

/-- R66: ADVANCE completes in every seeded state that is not faulted, with exactly one advance; unseeded it raises `UNSEEDED`. -/
def Obligations.AdvanceWritesRawWord : Prop :=
  ∀ s : State, s.err = 0 →
    (s.seeded = true →
      exec .advance s = .next { s with s0 := s.gen.next.s0, s1 := s.gen.next.s1, res := s.gen.raw }) ∧
    (s.seeded = false → exec .advance s = .next { s with err := 2, finfo := 0x00000010 })

/-! ## Integer layer (41_integer.md) -/

/-- R75: the threshold and the facts the rule lists. -/
def Obligations.ThresholdFacts : Prop :=
  ∀ b : Word, b ≠ 0 →
    (threshold b).toNat = (2 ^ 32 - b.toNat) % b.toNat ∧ (threshold b).toNat = 2 ^ 32 % b.toNat ∧
    (threshold b).toNat < b.toNat ∧ (threshold b).toNat < 2 ^ 31 ∧ (threshold b = 0 ↔ ∃ k, b.toNat = 2 ^ k) ∧
    b.toNat ∣ 2 ^ 32 - (threshold b).toNat

/-- R76: `BoundedDraw` answers the remainder of the first raw word that its loop's own test accepts; of all raw words that this
test accepts, equally many have each result in `[0, bound)` as their remainder. -/
def Obligations.DrawIsUnbiased : Prop :=
  ∀ b : Word, b ≠ 0 →
    (∀ (g : Gen) (n : Nat), AcceptedAt (threshold b) g n →
      boundedDraw b g = some (umod (Gen.next^[n] g).raw b, Gen.next^[n + 1] g)) ∧
    ∀ r : Word, r.toNat < b.toNat →
      ((Finset.range (2 ^ 32)).filter fun x =>
        ult (BitVec.ofNat 32 x) (threshold b) = false ∧ umod (BitVec.ofNat 32 x) b = r).card =
        (2 ^ 32 - (threshold b).toNat) / b.toNat

/-- R77: U32_TO of an engine that is not faulted. Unseeded it raises `UNSEEDED` and with bound 0 `ZERO_BOUND`, with nothing else
changed. Otherwise, from every generator state but `(0, 0)` (R11), it completes: it takes the advances up to the first raw word
that is not below the threshold, and its result is below the bound; a power of two takes exactly one advance. -/
def Obligations.U32ToCompletes : Prop :=
  ∀ s : State, s.err = 0 →
    (s.seeded = false → exec .u32To s = .next { s with err := 2, finfo := 0x00000011 }) ∧
    (s.seeded = true → s.arg0 = 0 → exec .u32To s = .next { s with err := 3, finfo := 0x00000011 }) ∧
    (s.seeded = true → s.gen ≠ Gen.zero → s.arg0 ≠ 0 →
      ∃ n, AcceptedAt (threshold s.arg0) s.gen n ∧
        exec .u32To s = .next { s with
          s0 := (Gen.next^[n + 1] s.gen).s0, s1 := (Gen.next^[n + 1] s.gen).s1,
          res := (Gen.next^[n] s.gen).raw % s.arg0 } ∧
        ((Gen.next^[n] s.gen).raw % s.arg0).toNat < s.arg0.toNat ∧
        ((∃ k, s.arg0.toNat = 2 ^ k) → n = 0))

/-- R78: U32_IN of an engine that is not faulted. Its faults in the rule's order, with nothing else changed; otherwise, from every
generator state but `(0, 0)` (R11), it completes with a result in `[lo, hi]`. -/
def Obligations.U32InCompletes : Prop :=
  ∀ s : State, s.err = 0 →
    (s.seeded = false → exec .u32In s = .next { s with err := 2, finfo := 0x00000012 }) ∧
    (s.seeded = true → s.arg1.toNat < s.arg0.toNat → exec .u32In s = .next { s with err := 4, finfo := 0x00000012 }) ∧
    (s.seeded = true → s.arg0 = 0 → s.arg1 = 0xFFFFFFFF → exec .u32In s = .next { s with err := 3, finfo := 0x00000012 }) ∧
    (s.seeded = true → s.gen ≠ Gen.zero → s.arg0.toNat ≤ s.arg1.toNat → ¬ (s.arg0 = 0 ∧ s.arg1 = 0xFFFFFFFF) →
      ∃ n d, AcceptedAt (threshold (s.arg1 - s.arg0 + 1)) s.gen n ∧
        d.toNat = (Gen.next^[n] s.gen).raw.toNat % (s.arg1.toNat - s.arg0.toNat + 1) ∧
        exec .u32In s = .next { s with
          s0 := (Gen.next^[n + 1] s.gen).s0, s1 := (Gen.next^[n + 1] s.gen).s1, res := s.arg0 + d } ∧
        (s.arg0 + d).toNat = s.arg0.toNat + d.toNat ∧ (s.arg0 + d).toNat ≤ s.arg1.toNat)

/-- R79: S32_IN of an engine that is not faulted. Its faults in the rule's order, with nothing else changed; otherwise, from every
generator state but `(0, 0)` (R11), it completes with a result whose signed value is in `[signed(lo), signed(hi)]`. -/
def Obligations.S32InCompletes : Prop :=
  ∀ s : State, s.err = 0 →
    (s.seeded = false → exec .s32In s = .next { s with err := 2, finfo := 0x00000013 }) ∧
    (s.seeded = true → s.arg1.toInt < s.arg0.toInt → exec .s32In s = .next { s with err := 4, finfo := 0x00000013 }) ∧
    (s.seeded = true → s.arg0 = 0x80000000 → s.arg1 = 0x7FFFFFFF →
      exec .s32In s = .next { s with err := 3, finfo := 0x00000013 }) ∧
    (s.seeded = true → s.gen ≠ Gen.zero → s.arg0.toInt ≤ s.arg1.toInt →
      ¬ (s.arg0 = 0x80000000 ∧ s.arg1 = 0x7FFFFFFF) →
      ∃ n d, AcceptedAt (threshold (s.arg1 - s.arg0 + 1)) s.gen n ∧
        (d.toNat : Int) = (Gen.next^[n] s.gen).raw.toNat % (s.arg1.toInt - s.arg0.toInt + 1) ∧
        exec .s32In s = .next { s with
          s0 := (Gen.next^[n + 1] s.gen).s0, s1 := (Gen.next^[n + 1] s.gen).s1, res := s.arg0 + d } ∧
        (s.arg0 + d).toInt = s.arg0.toInt + d.toNat ∧ (s.arg0 + d).toInt ≤ s.arg1.toInt)

/-- R80: ONE_IN of an engine that is not faulted. Unseeded it raises `UNSEEDED`, even with chance 0. Seeded, with chance 0 it writes
0 and takes no advance; otherwise, from every generator state but `(0, 0)` (R11), it writes 1 exactly when the draw is 0. -/
def Obligations.OneInCompletes : Prop :=
  ∀ s : State, s.err = 0 →
    (s.seeded = false → exec .oneIn s = .next { s with err := 2, finfo := 0x00000014 }) ∧
    (s.seeded = true → s.arg0 = 0 → exec .oneIn s = .next { s with res := 0 }) ∧
    (s.seeded = true → s.gen ≠ Gen.zero → s.arg0 ≠ 0 → ∃ n, AcceptedAt (threshold s.arg0) s.gen n ∧
      exec .oneIn s = .next { s with
        s0 := (Gen.next^[n + 1] s.gen).s0, s1 := (Gen.next^[n + 1] s.gen).s1,
        res := if (Gen.next^[n] s.gen).raw % s.arg0 = 0 then 1 else 0 })

/-! ## Float layer (42_float.md) -/

/-- R93: the pattern of `EunitFromBits` stands for `v * 2^-24` exactly. -/
def Obligations.EunitIsExact : Prop :=
  ∀ b : Word, f32Finite (eunitBits b) ∧ f32Value (eunitBits b) = ((b.toNat / 2 ^ 8 : Nat) : ℚ) / 2 ^ 24

/-- R91: the pattern of `UnitFromBits` is the binary32 number nearest to `v / (2^24 - 1)`, and no other is as near (no tie,
R92). -/
def Obligations.UnitIsCorrectlyRounded : Prop :=
  ∀ b y : Word, f32Finite y →
    f32Finite (unitBits b) ∧
    (f32Value y ≠ f32Value (unitBits b) →
      |f32Value (unitBits b) - ((b.toNat / 2 ^ 8 : Nat) : ℚ) / (2 ^ 24 - 1)| <
        |f32Value y - ((b.toNat / 2 ^ 8 : Nat) : ℚ) / (2 ^ 24 - 1)|)

/-- R94: UNIT_FROM_BITS completes in every state that is not faulted; the first 256 words give +0.0, the last 256 and no other
give 1.0; the smallest result that is not 0 is `0x33800001`. -/
def Obligations.UnitFromBitsCompletes : Prop :=
  (∀ s : State, s.err = 0 → exec .unitFromBits s = .next { s with res := unitBits s.arg0 }) ∧
  (∀ b : Word, b.toNat ≤ 0xFF → unitBits b = 0) ∧ (∀ b : Word, unitBits b = 0x3F800000 ↔ 0xFFFFFF00 ≤ b.toNat) ∧
  (∀ b : Word, unitBits b ≠ 0 → 0x33800001 ≤ (unitBits b).toNat) ∧
  unitBits 0x00000100 = 0x33800001 ∧ unitBits 0x80000000 = 0x3F000001 ∧ unitBits 0x12345678 = 0x3D91A2B1

/-- R95: EUNIT_FROM_BITS completes in every state that is not faulted; the first 256 words give +0.0, the last 256 give the
largest binary32 below 1.0, and no word gives 1.0. -/
def Obligations.EunitFromBitsCompletes : Prop :=
  (∀ s : State, s.err = 0 → exec .eunitFromBits s = .next { s with res := eunitBits s.arg0 }) ∧
  (∀ b : Word, b.toNat ≤ 0xFF → eunitBits b = 0) ∧ (∀ b : Word, 0xFFFFFF00 ≤ b.toNat → eunitBits b = 0x3F7FFFFF) ∧
  (∀ b : Word, eunitBits b ≠ 0x3F800000) ∧ eunitBits 0x00000100 = 0x33800000 ∧ eunitBits 0x80000000 = 0x3F000000 ∧
  eunitBits 0x12345678 = 0x3D91A2B0

/-- R96: FLOAT_UNIT completes in every seeded state that is not faulted, with exactly one advance; unseeded it raises
`UNSEEDED`. -/
def Obligations.FloatUnitCompletes : Prop :=
  ∀ s : State, s.err = 0 →
    (s.seeded = true →
      exec .floatUnit s = .next { s with s0 := s.gen.next.s0, s1 := s.gen.next.s1, res := unitBits s.gen.raw }) ∧
    (s.seeded = false → exec .floatUnit s = .next { s with err := 2, finfo := 0x00000022 })

/-- R97: FLOAT_EUNIT completes in every seeded state that is not faulted, with exactly one advance; unseeded it raises
`UNSEEDED`. -/
def Obligations.FloatEunitCompletes : Prop :=
  ∀ s : State, s.err = 0 →
    (s.seeded = true →
      exec .floatEunit s = .next { s with s0 := s.gen.next.s0, s1 := s.gen.next.s1, res := eunitBits s.gen.raw }) ∧
    (s.seeded = false → exec .floatEunit s = .next { s with err := 2, finfo := 0x00000023 })

/-- R98: every float result is +0.0 or a positive normal number in `[2^-24, 1.0]`: the sign bit is 0 and the biased exponent is
0 or in `[103, 127]`. -/
def Obligations.FloatResultsAreNormal : Prop :=
  ∀ b : Word, ∀ r ∈ [unitBits b, eunitBits b],
    r = 0 ∨ (r.toNat / 2 ^ 31 = 0 ∧ 103 ≤ r.toNat / 2 ^ 23 % 2 ^ 8 ∧ r.toNat / 2 ^ 23 % 2 ^ 8 ≤ 127 ∧
      r.toNat ≤ 0x3F800000)

/-- R99, R90: both conversions are strictly increasing in the top 24 bits and do not depend on the low 8; their largest
patterns are those of 1.0 and of the number below it. -/
def Obligations.FloatResultsIncrease : Prop :=
  (∀ b c : Word, b.toNat / 2 ^ 8 = c.toNat / 2 ^ 8 → unitBits b = unitBits c ∧ eunitBits b = eunitBits c) ∧
  (∀ b c : Word, b.toNat / 2 ^ 8 < c.toNat / 2 ^ 8 →
    (unitBits b).toNat < (unitBits c).toNat ∧ (eunitBits b).toNat < (eunitBits c).toNat) ∧
  ∀ b : Word, (unitBits b).toNat ≤ 0x3F800000 ∧ (eunitBits b).toNat ≤ 0x3F7FFFFF

/-! ## Shuffle (43_shuffle.md) -/

/-- R105: `HalfBits(count)` is the least `k` with `4^k > count`, and half the bit length of the count rounded up. -/
def Obligations.HalfBitsIsLeast : Prop :=
  ∀ c : Word, c.toNat < 4 ^ halfBits c ∧ (∀ j, c.toNat < 4 ^ j → halfBits c ≤ j) ∧
    halfBits c = (Nat.size c.toNat + 1) / 2

/-- R109: for fixed `k` and `seed` the network is a bijection of `[0, 4^k)` onto itself. -/
def Obligations.FeistelIsBijective : Prop :=
  ∀ (k : Nat) (seed y : Word), 1 ≤ k → k ≤ 16 → y.toNat < 4 ^ k →
    (feistel k seed y).toNat < 4 ^ k ∧ ∃! x : Word, x.toNat < 4 ^ k ∧ feistel k seed x = y

/-- R106: the network as arithmetic on natural numbers: the halves of `x`, four equal rounds from their old values, with the whole
seed under `F` and the mask on its result only, and no final swap. `l j` and `r j` are `left` and `right` after `j` rounds. -/
def Obligations.FeistelFormula : Prop :=
  ∀ (k : Nat) (seed x : Word), 1 ≤ k → k ≤ 16 → x.toNat < 4 ^ k →
    ∃ l r : Nat → Nat,
      l 0 = x.toNat / 2 ^ k ∧ r 0 = x.toNat % 2 ^ k ∧
      (∀ j, j < 4 → l (j + 1) = r j ∧
        r (j + 1) = l j ^^^ (finalizer (BitVec.ofNat 32 (r j ^^^ seed.toNat))).toNat % 2 ^ k) ∧
      (feistel k seed x).toNat = l 4 * 2 ^ k + r 4

/-- R107, R108: SHUFFLE with an index below the count completes in every state that is not faulted, seeded or not, after at most
`4^k - count + 1` evaluations of the network and at most `3 * count + 1`; the result is below the count. -/
def Obligations.ShuffleCompletes : Prop :=
  ∀ s : State, s.err = 0 → s.arg0.toNat < s.arg1.toNat →
    ∃ n, ReturnsAt s.arg1 s.arg2 (halfBits s.arg1) s.arg0 n ∧ n ≤ 4 ^ halfBits s.arg1 - s.arg1.toNat + 1 ∧
      n ≤ 3 * s.arg1.toNat + 1 ∧
      exec .shuffle s = .next { s with res := (feistel (halfBits s.arg1) s.arg2)^[n] s.arg0 } ∧
      ((feistel (halfBits s.arg1) s.arg2)^[n] s.arg0).toNat < s.arg1.toNat

/-- R107: for a fixed count and seed SHUFFLE is a bijection of `[0, count)`: every value below the count is the result for
exactly one index below the count. -/
def Obligations.ShuffleIsPermutation : Prop :=
  ∀ (s : State) (y : Word), s.err = 0 → y.toNat < s.arg1.toNat →
    ∃! x : Word, x.toNat < s.arg1.toNat ∧ exec .shuffle { s with arg0 := x } = .next { s with arg0 := x, res := y }

/-! ## Frames -/

/-- R14, R15, R10: MIX32, UNIT_FROM_BITS, EUNIT_FROM_BITS and SHUFFLE change only `RES` and, where they fault, `ERR` and `FINFO`;
the first three never fault. -/
def Obligations.FrameOfPureCommands : Prop :=
  ∀ (i : Instr) (s t : State), i ∈ [Instr.mix32, .unitFromBits, .eunitFromBits, .shuffle] → exec i s = .next t →
    t.s0 = s.s0 ∧ t.s1 = s.s1 ∧ t.seeded = s.seeded ∧ t.arg0 = s.arg0 ∧ t.arg1 = s.arg1 ∧ t.arg2 = s.arg2 ∧
    t.pending = s.pending ∧ t.readLog = s.readLog ∧ (t.err ≠ s.err → t.res = s.res) ∧
    (i ≠ .shuffle → t.err = s.err ∧ t.finfo = s.finfo) ∧ (t.err = s.err → t.finfo = s.finfo)

/-- R14, R15, R10, R13: the seven state-consuming commands change only `S0`, `S1` and `RES`, or, where they fault, only `ERR` and
`FINFO`. -/
def Obligations.FrameOfStateConsumingCommands : Prop :=
  ∀ (i : Instr) (s t : State), i ∈ stateConsuming → exec i s = .next t →
    t.seeded = s.seeded ∧ t.arg0 = s.arg0 ∧ t.arg1 = s.arg1 ∧ t.arg2 = s.arg2 ∧ t.pending = s.pending ∧
    t.readLog = s.readLog ∧ (t.err ≠ s.err → t.s0 = s.s0 ∧ t.s1 = s.s1 ∧ t.res = s.res) ∧
    (t.err = s.err → t.finfo = s.finfo)

/-- R14, R15: SEED and LDST change only `S0`, `S1` and `SEEDED`, or, where LDST faults, only `ERR` and `FINFO`. -/
def Obligations.FrameOfSeedAndLdst : Prop :=
  ∀ (i : Instr) (s t : State), i ∈ [Instr.seed, .ldst] → exec i s = .next t →
    t.arg0 = s.arg0 ∧ t.arg1 = s.arg1 ∧ t.arg2 = s.arg2 ∧ t.res = s.res ∧ t.pending = s.pending ∧ t.readLog = s.readLog ∧
    (t.err ≠ s.err → t.s0 = s.s0 ∧ t.s1 = s.s1 ∧ t.seeded = s.seeded) ∧
    (i = .seed → t.err = s.err ∧ t.finfo = s.finfo) ∧ (t.err = s.err → t.finfo = s.finfo)

/-- R115: CLRERR changes only `ERR` and `FINFO`. -/
def Obligations.FrameOfClrErr : Prop :=
  ∀ s t : State, exec .clrErr s = .next t →
    t.s0 = s.s0 ∧ t.s1 = s.s1 ∧ t.seeded = s.seeded ∧ t.arg0 = s.arg0 ∧ t.arg1 = s.arg1 ∧ t.arg2 = s.arg2 ∧
    t.res = s.res ∧ t.pending = s.pending ∧ t.readLog = s.readLog

/-- R14, R48: a command ignores the operand registers its rule does not name. Two runs that differ only in such a register end
in states that differ only in it, and the one stops where the other does. -/
def Obligations.CommandsIgnoreUnnamedOperands : Prop :=
  ∀ (i : Instr) (r : RegIndex) (v : Word) (s t : State), r ∉ argsRead i →
    (exec i s = .next t → exec i (s.writeReg r v) = .next (t.writeReg r v)) ∧
    (exec i s = .fault .hang → exec i (s.writeReg r v) = .fault .hang)

/-- R10: a step leaves the generator state as it was, or it is SEED, LDST, a state-consuming command of a seeded engine, or a
reset. The premise is R11's invariant (see `SeededChangesOnlyBySeedLdstReset`). -/
def Obligations.GenChangesOnlyByGeneratorCommands : Prop :=
  ∀ s t : State, s.GenOk → step s = .next t →
    t.gen = s.gen ∨
    (∃ i rest, i ∈ stateConsuming ∧ s.seeded = true ∧ s.pending = .write 0 (encode i) :: rest) ∨
    (∃ rest, s.pending = .write 0 (encode .seed) :: rest) ∨ (∃ rest, s.pending = .write 0 (encode .ldst) :: rest) ∨
    ∃ rest, s.pending = .reset :: rest

/-! ## Invariants and progress -/

/-- R11, R13, R16, R143 at reset. -/
def Obligations.ResetMeetsInvariants : Prop := State.reset.Inv

/-- R11, R13, R16, R143: every step keeps the invariants: a seeded engine never holds `(0, 0)`, an unseeded one holds nothing else,
`ERR` is at most 6, and `FINFO = 0` while `ERR = 0`. -/
def Obligations.StepKeepsInvariants : Prop :=
  ∀ s t : State, s.Inv → step s = .next t → t.Inv

/-- R166, R168: from every state that meets the invariants, whatever the host does next, the step completes: nothing hangs,
stops or is refused, and the invariants hold again. -/
def Obligations.EveryStepCompletes : Prop :=
  ∀ s : State, s.Inv → ∃ t, step s = .next t ∧ t.Inv

/-- R166, U15: where a command hangs, the hang is genuine: the engine is seeded and not faulted, holds `(0, 0)` (a state that R11
forbids), and the command is one of the four with a rejection loop. -/
def Obligations.HangsOnlyInForbiddenState : Prop :=
  ∀ (i : Instr) (s : State) (f : Fault), exec i s = .fault f →
    i ∈ [Instr.u32To, .u32In, .s32In, .oneIn] ∧ s.err = 0 ∧ s.seeded = true ∧ s.gen = Gen.zero

/-- R24, R55: reading `S0`, `S1` and later loading them with `ldst` brings the stream back: the pseudo-instruction `ldst a, b` run on
any engine that is not faulted makes the saved pair resident. -/
def Obligations.SavedStreamIsRestored : Prop :=
  ∀ (s u : State), s.gen ≠ Gen.zero → u.err = 0 →
    Host.Core.run core 2 { s with pending := Pseudo.getstate.expand } =
      .next { s with pending := [], readLog := s.s1 :: s.s0 :: s.readLog } ∧
    Host.Core.run core 3 { u with pending := (Pseudo.ldst s.s0 s.s1).expand } =
      .next { u with s0 := s.s0, s1 := s.s1, seeded := true, arg0 := s.s0, arg1 := s.s1, pending := [] }

/-! ## Host layer (48_host_layer.md) -/

/-- 00_scope.md section 6.1, 93_implementation_defined.md G2: the order that `floatIn` asks of its bounds is the order of the
numbers, and the test of the hemisphere says of a number whether it is below zero (log 15). -/
def Obligations.FloatOrderIsOrderOfNumbers : Prop :=
  ∀ x y : Word, f32Finite x → f32Finite y →
    (f32Le x y = true ↔ f32Value x ≤ f32Value y) ∧ (f32Negative x = true ↔ f32Value x < 0)

/-- R125: the hemisphere sample is the sphere sample, with all signs flipped when the dot product is negative; a dot product that
is exactly zero does not flip, whatever its sign. -/
def Obligations.HemisphereFlipsNegative : Prop :=
  (∀ (normal p : Word × Word × Word) (s t : State), pointOnUnitSphere s = some (p, t) →
    pointOnUnitHemisphere normal s = some
      (if f32Negative (Config.fdot3 p normal) then
        (p.1 ^^^ 0x80000000, p.2.1 ^^^ 0x80000000, p.2.2 ^^^ 0x80000000) else p, t)) ∧
  ∀ x : Word, x = 0 ∨ x = 0x80000000 → f32Negative x = false
end

