-- ==== Sys2Proof/Laws/State.lean ====
section
/-! SUPPORT. What each update of the state leaves in each field, one lemma per field and update, and the views (`gen`,
`faulted`) after each update. Later proofs cite these and unfold no record update. -/

namespace Sys2Proof.Machine

variable (s : State)

/-! ### Writing the generator state (R64) -/

@[simp] theorem State.setGen_s0 (g : Gen) : (s.setGen g).s0 = g.s0 := rfl
@[simp] theorem State.setGen_s1 (g : Gen) : (s.setGen g).s1 = g.s1 := rfl
@[simp] theorem State.setGen_seeded (g : Gen) : (s.setGen g).seeded = s.seeded := rfl
@[simp] theorem State.setGen_arg0 (g : Gen) : (s.setGen g).arg0 = s.arg0 := rfl
@[simp] theorem State.setGen_arg1 (g : Gen) : (s.setGen g).arg1 = s.arg1 := rfl
@[simp] theorem State.setGen_arg2 (g : Gen) : (s.setGen g).arg2 = s.arg2 := rfl
@[simp] theorem State.setGen_res (g : Gen) : (s.setGen g).res = s.res := rfl
@[simp] theorem State.setGen_err (g : Gen) : (s.setGen g).err = s.err := rfl
@[simp] theorem State.setGen_finfo (g : Gen) : (s.setGen g).finfo = s.finfo := rfl
@[simp] theorem State.setGen_pending (g : Gen) : (s.setGen g).pending = s.pending := rfl
@[simp] theorem State.setGen_readLog (g : Gen) : (s.setGen g).readLog = s.readLog := rfl
@[simp] theorem State.setGen_gen (g : Gen) : (s.setGen g).gen = g := rfl
@[simp] theorem State.setGen_faulted (g : Gen) : (s.setGen g).faulted = s.faulted := rfl

/-! ### Making a pair the resident generator state (R63, R67) -/

@[simp] theorem State.install_s0 (g : Gen) : (s.install g).s0 = g.s0 := rfl
@[simp] theorem State.install_s1 (g : Gen) : (s.install g).s1 = g.s1 := rfl
@[simp] theorem State.install_seeded (g : Gen) : (s.install g).seeded = true := rfl
@[simp] theorem State.install_arg0 (g : Gen) : (s.install g).arg0 = s.arg0 := rfl
@[simp] theorem State.install_arg1 (g : Gen) : (s.install g).arg1 = s.arg1 := rfl
@[simp] theorem State.install_arg2 (g : Gen) : (s.install g).arg2 = s.arg2 := rfl
@[simp] theorem State.install_res (g : Gen) : (s.install g).res = s.res := rfl
@[simp] theorem State.install_err (g : Gen) : (s.install g).err = s.err := rfl
@[simp] theorem State.install_finfo (g : Gen) : (s.install g).finfo = s.finfo := rfl
@[simp] theorem State.install_pending (g : Gen) : (s.install g).pending = s.pending := rfl
@[simp] theorem State.install_readLog (g : Gen) : (s.install g).readLog = s.readLog := rfl
@[simp] theorem State.install_gen (g : Gen) : (s.install g).gen = g := rfl
@[simp] theorem State.install_faulted (g : Gen) : (s.install g).faulted = s.faulted := rfl

/-! ### Writing the result (R15) -/

@[simp] theorem State.setRes_s0 (v : Word) : (s.setRes v).s0 = s.s0 := rfl
@[simp] theorem State.setRes_s1 (v : Word) : (s.setRes v).s1 = s.s1 := rfl
@[simp] theorem State.setRes_seeded (v : Word) : (s.setRes v).seeded = s.seeded := rfl
@[simp] theorem State.setRes_arg0 (v : Word) : (s.setRes v).arg0 = s.arg0 := rfl
@[simp] theorem State.setRes_arg1 (v : Word) : (s.setRes v).arg1 = s.arg1 := rfl
@[simp] theorem State.setRes_arg2 (v : Word) : (s.setRes v).arg2 = s.arg2 := rfl
@[simp] theorem State.setRes_res (v : Word) : (s.setRes v).res = v := rfl
@[simp] theorem State.setRes_err (v : Word) : (s.setRes v).err = s.err := rfl
@[simp] theorem State.setRes_finfo (v : Word) : (s.setRes v).finfo = s.finfo := rfl
@[simp] theorem State.setRes_pending (v : Word) : (s.setRes v).pending = s.pending := rfl
@[simp] theorem State.setRes_readLog (v : Word) : (s.setRes v).readLog = s.readLog := rfl
@[simp] theorem State.setRes_gen (v : Word) : (s.setRes v).gen = s.gen := rfl
@[simp] theorem State.setRes_faulted (v : Word) : (s.setRes v).faulted = s.faulted := rfl

/-! ### The host receiving the data of a read (R32) -/

@[simp] theorem State.logRead_s0 (v : Word) : (s.logRead v).s0 = s.s0 := rfl
@[simp] theorem State.logRead_s1 (v : Word) : (s.logRead v).s1 = s.s1 := rfl
@[simp] theorem State.logRead_seeded (v : Word) : (s.logRead v).seeded = s.seeded := rfl
@[simp] theorem State.logRead_arg0 (v : Word) : (s.logRead v).arg0 = s.arg0 := rfl
@[simp] theorem State.logRead_arg1 (v : Word) : (s.logRead v).arg1 = s.arg1 := rfl
@[simp] theorem State.logRead_arg2 (v : Word) : (s.logRead v).arg2 = s.arg2 := rfl
@[simp] theorem State.logRead_res (v : Word) : (s.logRead v).res = s.res := rfl
@[simp] theorem State.logRead_err (v : Word) : (s.logRead v).err = s.err := rfl
@[simp] theorem State.logRead_finfo (v : Word) : (s.logRead v).finfo = s.finfo := rfl
@[simp] theorem State.logRead_pending (v : Word) : (s.logRead v).pending = s.pending := rfl
@[simp] theorem State.logRead_readLog (v : Word) : (s.logRead v).readLog = v :: s.readLog := rfl
@[simp] theorem State.logRead_gen (v : Word) : (s.logRead v).gen = s.gen := rfl
@[simp] theorem State.logRead_faulted (v : Word) : (s.logRead v).faulted = s.faulted := rfl

/-! ### Fault entry (R143) -/

@[simp] theorem State.raiseFault_s0 (c : FaultCode) (w : Word) : (s.raiseFault c w).s0 = s.s0 := rfl
@[simp] theorem State.raiseFault_s1 (c : FaultCode) (w : Word) : (s.raiseFault c w).s1 = s.s1 := rfl
@[simp] theorem State.raiseFault_seeded (c : FaultCode) (w : Word) : (s.raiseFault c w).seeded = s.seeded := rfl
@[simp] theorem State.raiseFault_arg0 (c : FaultCode) (w : Word) : (s.raiseFault c w).arg0 = s.arg0 := rfl
@[simp] theorem State.raiseFault_arg1 (c : FaultCode) (w : Word) : (s.raiseFault c w).arg1 = s.arg1 := rfl
@[simp] theorem State.raiseFault_arg2 (c : FaultCode) (w : Word) : (s.raiseFault c w).arg2 = s.arg2 := rfl
@[simp] theorem State.raiseFault_res (c : FaultCode) (w : Word) : (s.raiseFault c w).res = s.res := rfl
@[simp] theorem State.raiseFault_err (c : FaultCode) (w : Word) : (s.raiseFault c w).err = c.code := rfl
@[simp] theorem State.raiseFault_finfo (c : FaultCode) (w : Word) : (s.raiseFault c w).finfo = w := rfl
@[simp] theorem State.raiseFault_pending (c : FaultCode) (w : Word) : (s.raiseFault c w).pending = s.pending := rfl
@[simp] theorem State.raiseFault_readLog (c : FaultCode) (w : Word) : (s.raiseFault c w).readLog = s.readLog := rfl
@[simp] theorem State.raiseFault_gen (c : FaultCode) (w : Word) : (s.raiseFault c w).gen = s.gen := rfl
@[simp] theorem State.raiseFault_faulted (c : FaultCode) (w : Word) : (s.raiseFault c w).faulted = true := by cases c <;> rfl

/-! ### Leaving the faulted state (R115) -/

@[simp] theorem State.clearFault_s0 : (s.clearFault).s0 = s.s0 := rfl
@[simp] theorem State.clearFault_s1 : (s.clearFault).s1 = s.s1 := rfl
@[simp] theorem State.clearFault_seeded : (s.clearFault).seeded = s.seeded := rfl
@[simp] theorem State.clearFault_arg0 : (s.clearFault).arg0 = s.arg0 := rfl
@[simp] theorem State.clearFault_arg1 : (s.clearFault).arg1 = s.arg1 := rfl
@[simp] theorem State.clearFault_arg2 : (s.clearFault).arg2 = s.arg2 := rfl
@[simp] theorem State.clearFault_res : (s.clearFault).res = s.res := rfl
@[simp] theorem State.clearFault_err : (s.clearFault).err = 0 := rfl
@[simp] theorem State.clearFault_finfo : (s.clearFault).finfo = 0 := rfl
@[simp] theorem State.clearFault_pending : (s.clearFault).pending = s.pending := rfl
@[simp] theorem State.clearFault_readLog : (s.clearFault).readLog = s.readLog := rfl
@[simp] theorem State.clearFault_gen : (s.clearFault).gen = s.gen := rfl
@[simp] theorem State.clearFault_faulted : (s.clearFault).faulted = false := rfl

/-! ### Reset (R160, R22) -/

@[simp] theorem State.resetEngine_s0 : (s.resetEngine).s0 = 0 := rfl
@[simp] theorem State.resetEngine_s1 : (s.resetEngine).s1 = 0 := rfl
@[simp] theorem State.resetEngine_seeded : (s.resetEngine).seeded = false := rfl
@[simp] theorem State.resetEngine_arg0 : (s.resetEngine).arg0 = 0 := rfl
@[simp] theorem State.resetEngine_arg1 : (s.resetEngine).arg1 = 0 := rfl
@[simp] theorem State.resetEngine_arg2 : (s.resetEngine).arg2 = 0 := rfl
@[simp] theorem State.resetEngine_res : (s.resetEngine).res = 0 := rfl
@[simp] theorem State.resetEngine_err : (s.resetEngine).err = 0 := rfl
@[simp] theorem State.resetEngine_finfo : (s.resetEngine).finfo = 0 := rfl
@[simp] theorem State.resetEngine_pending : (s.resetEngine).pending = s.pending := rfl
@[simp] theorem State.resetEngine_readLog : (s.resetEngine).readLog = s.readLog := rfl
@[simp] theorem State.resetEngine_gen : (s.resetEngine).gen = Gen.zero := rfl
@[simp] theorem State.resetEngine_faulted : (s.resetEngine).faulted = false := rfl

/-! ### The host having other transactions to issue -/

@[simp] theorem State.withPending_s0 (rest : List Transaction) : (s.withPending rest).s0 = s.s0 := rfl
@[simp] theorem State.withPending_s1 (rest : List Transaction) : (s.withPending rest).s1 = s.s1 := rfl
@[simp] theorem State.withPending_seeded (rest : List Transaction) : (s.withPending rest).seeded = s.seeded := rfl
@[simp] theorem State.withPending_arg0 (rest : List Transaction) : (s.withPending rest).arg0 = s.arg0 := rfl
@[simp] theorem State.withPending_arg1 (rest : List Transaction) : (s.withPending rest).arg1 = s.arg1 := rfl
@[simp] theorem State.withPending_arg2 (rest : List Transaction) : (s.withPending rest).arg2 = s.arg2 := rfl
@[simp] theorem State.withPending_res (rest : List Transaction) : (s.withPending rest).res = s.res := rfl
@[simp] theorem State.withPending_err (rest : List Transaction) : (s.withPending rest).err = s.err := rfl
@[simp] theorem State.withPending_finfo (rest : List Transaction) : (s.withPending rest).finfo = s.finfo := rfl
@[simp] theorem State.withPending_pending (rest : List Transaction) : (s.withPending rest).pending = rest := rfl
@[simp] theorem State.withPending_readLog (rest : List Transaction) : (s.withPending rest).readLog = s.readLog := rfl
@[simp] theorem State.withPending_gen (rest : List Transaction) : (s.withPending rest).gen = s.gen := rfl
@[simp] theorem State.withPending_faulted (rest : List Transaction) : (s.withPending rest).faulted = s.faulted := rfl

/-! ### The host's next act being a write to CMD -/

@[simp] theorem State.issueCommand_s0 (w : Word) : (s.issueCommand w).s0 = s.s0 := rfl
@[simp] theorem State.issueCommand_s1 (w : Word) : (s.issueCommand w).s1 = s.s1 := rfl
@[simp] theorem State.issueCommand_seeded (w : Word) : (s.issueCommand w).seeded = s.seeded := rfl
@[simp] theorem State.issueCommand_arg0 (w : Word) : (s.issueCommand w).arg0 = s.arg0 := rfl
@[simp] theorem State.issueCommand_arg1 (w : Word) : (s.issueCommand w).arg1 = s.arg1 := rfl
@[simp] theorem State.issueCommand_arg2 (w : Word) : (s.issueCommand w).arg2 = s.arg2 := rfl
@[simp] theorem State.issueCommand_res (w : Word) : (s.issueCommand w).res = s.res := rfl
@[simp] theorem State.issueCommand_err (w : Word) : (s.issueCommand w).err = s.err := rfl
@[simp] theorem State.issueCommand_finfo (w : Word) : (s.issueCommand w).finfo = s.finfo := rfl
@[simp] theorem State.issueCommand_pending (w : Word) : (s.issueCommand w).pending = .write 0 w :: s.pending := rfl
@[simp] theorem State.issueCommand_readLog (w : Word) : (s.issueCommand w).readLog = s.readLog := rfl
@[simp] theorem State.issueCommand_gen (w : Word) : (s.issueCommand w).gen = s.gen := rfl
@[simp] theorem State.issueCommand_faulted (w : Word) : (s.issueCommand w).faulted = s.faulted := rfl

/-! ### Writing a register through the port (R33): only the operand registers can change -/

@[simp] theorem State.writeReg_s0 (i : RegIndex) (v : Word) : (s.writeReg i v).s0 = s.s0 := by
  fin_cases i <;> rfl
@[simp] theorem State.writeReg_s1 (i : RegIndex) (v : Word) : (s.writeReg i v).s1 = s.s1 := by
  fin_cases i <;> rfl
@[simp] theorem State.writeReg_seeded (i : RegIndex) (v : Word) : (s.writeReg i v).seeded = s.seeded := by
  fin_cases i <;> rfl
theorem State.writeReg_arg0 (i : RegIndex) (v : Word) :
    (s.writeReg i v).arg0 = if i = 2 then v else s.arg0 := by
  fin_cases i <;> rfl
theorem State.writeReg_arg1 (i : RegIndex) (v : Word) :
    (s.writeReg i v).arg1 = if i = 3 then v else s.arg1 := by
  fin_cases i <;> rfl
theorem State.writeReg_arg2 (i : RegIndex) (v : Word) :
    (s.writeReg i v).arg2 = if i = 4 then v else s.arg2 := by
  fin_cases i <;> rfl
@[simp] theorem State.writeReg_res (i : RegIndex) (v : Word) : (s.writeReg i v).res = s.res := by
  fin_cases i <;> rfl
@[simp] theorem State.writeReg_err (i : RegIndex) (v : Word) : (s.writeReg i v).err = s.err := by
  fin_cases i <;> rfl
@[simp] theorem State.writeReg_finfo (i : RegIndex) (v : Word) : (s.writeReg i v).finfo = s.finfo := by
  fin_cases i <;> rfl
@[simp] theorem State.writeReg_pending (i : RegIndex) (v : Word) : (s.writeReg i v).pending = s.pending := by
  fin_cases i <;> rfl
@[simp] theorem State.writeReg_readLog (i : RegIndex) (v : Word) : (s.writeReg i v).readLog = s.readLog := by
  fin_cases i <;> rfl
@[simp] theorem State.writeReg_gen (i : RegIndex) (v : Word) : (s.writeReg i v).gen = s.gen := by
  fin_cases i <;> rfl
@[simp] theorem State.writeReg_faulted (i : RegIndex) (v : Word) : (s.writeReg i v).faulted = s.faulted := by
  fin_cases i <;> rfl

/-! ### The views -/

@[simp] theorem State.gen_s0 : s.gen.s0 = s.s0 := rfl
@[simp] theorem State.gen_s1 : s.gen.s1 = s.s1 := rfl

theorem State.gen_eq_zero_iff : s.gen = Gen.zero ↔ s.s0 = 0 ∧ s.s1 = 0 := by
  simp [State.gen, Gen.zero]

theorem State.faulted_eq_false_iff : s.faulted = false ↔ s.err = 0 := by
  simp [State.faulted]

theorem State.faulted_eq_true_iff : s.faulted = true ↔ s.err ≠ 0 := by
  simp [State.faulted]

/-- Writing back the generator state that is resident changes nothing. -/
@[simp] theorem State.setGen_self : s.setGen s.gen = s := rfl

theorem FaultCode.code_ne_zero (c : FaultCode) : c.code ≠ 0 := by cases c <;> decide

theorem FaultCode.code_le_six (c : FaultCode) : c.code.toNat ≤ 6 := by cases c <;> decide

theorem FaultCode.code_injective (c d : FaultCode) (h : c.code = d.code) : c = d := by
  cases c <;> cases d <;> first | rfl | exact absurd h (by decide)

end Sys2Proof.Machine
end

