-- ==== Sys2Proof/Laws/Ops.lean ====
section
/-! SUPPORT. What the shared operations can do: the gate of R49, the refusals, and the decoder against the encoder. -/

namespace Sys2Proof.Machine

/-! ## Which commands need SEEDED (R48) -/

@[simp] theorem needsSeeded_seed : needsSeeded .seed = false := rfl
@[simp] theorem needsSeeded_ldst : needsSeeded .ldst = false := rfl
@[simp] theorem needsSeeded_clrErr : needsSeeded .clrErr = false := rfl
@[simp] theorem needsSeeded_mix32 : needsSeeded .mix32 = false := rfl
@[simp] theorem needsSeeded_advance : needsSeeded .advance = true := rfl
@[simp] theorem needsSeeded_u32To : needsSeeded .u32To = true := rfl
@[simp] theorem needsSeeded_u32In : needsSeeded .u32In = true := rfl
@[simp] theorem needsSeeded_s32In : needsSeeded .s32In = true := rfl
@[simp] theorem needsSeeded_oneIn : needsSeeded .oneIn = true := rfl
@[simp] theorem needsSeeded_unitFromBits : needsSeeded .unitFromBits = false := rfl
@[simp] theorem needsSeeded_eunitFromBits : needsSeeded .eunitFromBits = false := rfl
@[simp] theorem needsSeeded_floatUnit : needsSeeded .floatUnit = true := rfl
@[simp] theorem needsSeeded_floatEunit : needsSeeded .floatEunit = true := rfl
@[simp] theorem needsSeeded_shuffle : needsSeeded .shuffle = false := rfl

/-! ## The gate (R49) -/

/-- Step 1: a faulted engine discards the command (R144). -/
theorem acceptCommand_of_faulted (i : Instr) (run : State → Result) (s : State) (h : s.faulted = true) :
    acceptCommand i run s = .next s := by
  simp [acceptCommand, h]

/-- Step 3: without `SEEDED` a command that needs it is refused. -/
theorem acceptCommand_of_unseeded (i : Instr) (run : State → Result) (s : State) (hf : s.faulted = false)
    (hn : needsSeeded i = true) (hs : s.seeded = false) :
    acceptCommand i run s = .next (s.raiseFault .unseeded (encode i)) := by
  simp [acceptCommand, refuseCommand, hf, hn, hs]

/-- Step 4: otherwise the command's own rule runs. -/
theorem acceptCommand_of_ready (i : Instr) (run : State → Result) (s : State) (hf : s.faulted = false)
    (hs : needsSeeded i = true → s.seeded = true) : acceptCommand i run s = run s := by
  cases hn : needsSeeded i <;> simp_all [acceptCommand]

/-- Everything the gate can do. -/
theorem acceptCommand_cases (i : Instr) (run : State → Result) (s : State) :
    (s.faulted = true ∧ acceptCommand i run s = .next s) ∨
    (s.faulted = false ∧ needsSeeded i = true ∧ s.seeded = false ∧
      acceptCommand i run s = .next (s.raiseFault .unseeded (encode i))) ∨
    (s.faulted = false ∧ (needsSeeded i = true → s.seeded = true) ∧ acceptCommand i run s = run s) := by
  cases hf : s.faulted
  · by_cases h : needsSeeded i = true ∧ s.seeded = false
    · exact .inr (.inl ⟨rfl, h.1, h.2, acceptCommand_of_unseeded i run s hf h.1 h.2⟩)
    · have hs : needsSeeded i = true → s.seeded = true := by
        intro hn
        cases hs : s.seeded
        · exact absurd ⟨hn, hs⟩ h
        · rfl
      exact .inr (.inr ⟨rfl, hs, acceptCommand_of_ready i run s hf hs⟩)
  · exact .inl ⟨rfl, acceptCommand_of_faulted i run s hf⟩

@[simp] theorem refuseCommand_eq (c : FaultCode) (i : Instr) (s : State) :
    refuseCommand c i s = .next (s.raiseFault c (encode i)) := rfl

/-! ## The decoder and the encoder (R47) -/

theorem decode_seed : decode 0x00000001 = .ok .seed := by decide
theorem decode_ldst : decode 0x00000002 = .ok .ldst := by decide
theorem decode_clrErr : decode 0x00000003 = .ok .clrErr := by decide
theorem decode_mix32 : decode 0x00000004 = .ok .mix32 := by decide
theorem decode_advance : decode 0x00000010 = .ok .advance := by decide
theorem decode_u32To : decode 0x00000011 = .ok .u32To := by decide
theorem decode_u32In : decode 0x00000012 = .ok .u32In := by decide
theorem decode_s32In : decode 0x00000013 = .ok .s32In := by decide
theorem decode_oneIn : decode 0x00000014 = .ok .oneIn := by decide
theorem decode_unitFromBits : decode 0x00000020 = .ok .unitFromBits := by decide
theorem decode_eunitFromBits : decode 0x00000021 = .ok .eunitFromBits := by decide
theorem decode_floatUnit : decode 0x00000022 = .ok .floatUnit := by decide
theorem decode_floatEunit : decode 0x00000023 = .ok .floatEunit := by decide
theorem decode_shuffle : decode 0x00000030 = .ok .shuffle := by decide

end Sys2Proof.Machine
end

