-- ==== Sys2Proof/Laws/Period.lean ====
section
/-! SUPPORT. The generator has full period (R65 item 4, which the spec marks as general knowledge; here it is proved): from
every generator state other than `(0, 0)` the transition of `Advance` reaches every other such state in fewer than `2^64 - 1`
steps. Shape of the proof: the transition is linear over GF(2) (R65 item 1), so a polynomial, held as a Nat whose bit `i` is
the coefficient of `x^i`, acts on generator states with `x` acting as the transition; the characteristic polynomial acts as
zero; and in the ring of polynomials modulo it, `x^(2^64-1) = 1` while `x^((2^64-1)/q) - 1` has an inverse for each prime
factor `q`. -/

namespace Sys2Proof.Machine

/-! ## The transition is linear -/

/-- Bitwise exclusive or of two generator states. -/
def Gen.xor (g h : Gen) : Gen := ⟨g.s0 ^^^ h.s0, g.s1 ^^^ h.s1⟩

theorem Gen.xor_assoc (a b c : Gen) : (a.xor b).xor c = a.xor (b.xor c) := by
  simp [Gen.xor, BitVec.xor_assoc]

theorem Gen.xor_comm (a b : Gen) : a.xor b = b.xor a := by
  simp [Gen.xor, BitVec.xor_comm]

@[simp] theorem Gen.xor_self (a : Gen) : a.xor a = Gen.zero := by simp [Gen.xor, Gen.zero]

@[simp] theorem Gen.xor_zero (a : Gen) : a.xor Gen.zero = a := by simp [Gen.xor, Gen.zero]

@[simp] theorem Gen.zero_xor (a : Gen) : Gen.zero.xor a = a := by simp [Gen.xor, Gen.zero]

theorem Gen.xor_xor_swap (a b c d : Gen) : (a.xor b).xor (c.xor d) = (a.xor c).xor (b.xor d) := by
  rw [Gen.xor_assoc, Gen.xor_assoc, ← Gen.xor_assoc b, Gen.xor_comm b c, Gen.xor_assoc c]

theorem Gen.eq_of_xor_eq_zero (a b : Gen) (h : a.xor b = Gen.zero) : a = b := by
  have : (a.xor b).xor b = Gen.zero.xor b := by rw [h]
  simpa [Gen.xor_assoc] using this

theorem rotl32_xor (x y : Word) (k : Nat) (hk : k ≤ 32) :
    rotl32 (x ^^^ y) k = rotl32 x k ^^^ rotl32 y k := by
  ext i hi
  by_cases h : i < k
  · simp [rotl32, h]
  · have : ¬ (32 - k + i < 32) := by omega
    simp [rotl32, h, BitVec.getLsbD_of_ge _ _ (Nat.le_of_not_lt this)]

theorem Gen.next_xor (g h : Gen) : (g.xor h).next = g.next.xor h.next := by
  have e : xor32 (g.s1 ^^^ h.s1) (g.s0 ^^^ h.s0) = xor32 g.s1 g.s0 ^^^ xor32 h.s1 h.s0 := by
    simp only [xor32]; ac_rfl
  simp only [Gen.next, Gen.xor, e, rotl32_xor _ _ 26 (by omega), rotl32_xor _ _ 13 (by omega),
    BitVec.shiftLeft_xor_distrib, Gen.mk.injEq, and_true]
  simp only [xor32]; ac_rfl

@[simp] theorem Gen.next_zero : Gen.zero.next = Gen.zero := by decide

/-! ## Polynomials over GF(2) acting on generator states -/

/-- The first `n` coefficients of the polynomial `f` applied to `v`, with `x` acting as the transition. -/
def polyAct (n f : Nat) (v : Gen) : Gen :=
  match n with
  | 0 => Gen.zero
  | n + 1 => (if f.testBit 0 then v else Gen.zero).xor (polyAct n (f / 2) v).next

theorem polyAct_zero_poly (n : Nat) (v : Gen) : polyAct n 0 v = Gen.zero := by
  induction n with
  | zero => rfl
  | succ n ih => simp [polyAct, ih]

theorem polyAct_one (n : Nat) (v : Gen) : polyAct (n + 1) 1 v = v := by
  simp [polyAct, polyAct_zero_poly]

@[simp] theorem polyAct_zero (n f : Nat) : polyAct n f Gen.zero = Gen.zero := by
  induction n generalizing f with
  | zero => rfl
  | succ n ih => simp [polyAct, ih]

theorem polyAct_next (n f : Nat) (v : Gen) : polyAct n f v.next = (polyAct n f v).next := by
  induction n generalizing f with
  | zero => simp [polyAct]
  | succ n ih => simp only [polyAct, ih, Gen.next_xor]; split <;> simp

theorem polyAct_xor_poly (n f g : Nat) (v : Gen) :
    polyAct n (f ^^^ g) v = (polyAct n f v).xor (polyAct n g v) := by
  induction n generalizing f g with
  | zero => simp [polyAct]
  | succ n ih =>
    simp only [polyAct, Nat.xor_div_two, ih, Gen.next_xor, Nat.testBit_xor]
    rw [Gen.xor_xor_swap]
    congr 1
    cases f.testBit 0 <;> cases g.testBit 0 <;> simp

theorem polyAct_xor (n f : Nat) (v w : Gen) :
    polyAct n f (v.xor w) = (polyAct n f v).xor (polyAct n f w) := by
  induction n generalizing f with
  | zero => simp [polyAct]
  | succ n ih =>
    simp only [polyAct, ih, Gen.next_xor]
    rw [Gen.xor_xor_swap]
    congr 1
    cases f.testBit 0 <;> simp

/-- Coefficients above the degree do not matter. -/
theorem polyAct_extend (n f : Nat) (v : Gen) (h : f < 2 ^ n) : polyAct (n + 1) f v = polyAct n f v := by
  induction n generalizing f with
  | zero =>
    have : f = 0 := by omega
    subst this
    simp [polyAct]
  | succ n ih =>
    have h2 : f / 2 < 2 ^ n := by rw [Nat.pow_succ] at h; omega
    rw [polyAct, ih _ h2, polyAct]

theorem polyAct_double (n f : Nat) (v : Gen) : polyAct (n + 1) (2 * f) v = (polyAct n f v).next := by
  simp [polyAct]

/-! ## Every generator state is a sum of unit states -/

/-- The word whose one set bit is bit `i`. -/
def unitWord (i : Nat) : Word := (1 : Word) <<< i

theorem word_induction (P : Word → Prop) (h0 : P 0) (hx : ∀ a b, P a → P b → P (a ^^^ b))
    (hu : ∀ i, i < 32 → P (unitWord i)) (x : Word) : P x := by
  have key : ∀ n, n ≤ 32 → ∀ y : Word, y.toNat < 2 ^ n → P y := by
    intro n
    induction n with
    | zero =>
      intro _ y hy
      have : y = 0 := BitVec.eq_of_toNat_eq (by simpa using hy)
      exact this ▸ h0
    | succ n ih =>
      intro hn y hy
      by_cases hb : y.toNat < 2 ^ n
      · exact ih (by omega) y hb
      · have hlow : P (y ^^^ unitWord n) := by
          refine ih (by omega) _ ?_
          apply Nat.lt_pow_two_of_testBit
          intro i hi
          rw [← BitVec.getLsbD, BitVec.getLsbD_xor]
          by_cases hin : i = n
          · subst hin
            have h1 : y.getLsbD i = true := by
              rw [BitVec.getLsbD, Nat.testBit_eq_decide_div_mod_eq]
              have : y.toNat / 2 ^ i = 1 := by
                apply Nat.div_eq_of_lt_le <;> rw [Nat.pow_succ] at * <;> omega
              simp [this]
            simp [h1, unitWord, show i < 32 by omega]
          · have h1 : y.getLsbD i = false := by
              apply Nat.testBit_lt_two_pow
              exact Nat.lt_of_lt_of_le hy (Nat.pow_le_pow_right (by decide) (by omega))
            have h2 : (unitWord n).getLsbD i = false := by
              have : i - n ≠ 0 := by omega
              simp [unitWord, this]
            simp [h1, h2]
        have := hx _ _ hlow (hu n (by omega))
        simpa [BitVec.xor_assoc] using this
  exact key 32 (Nat.le_refl _) x (by simpa using x.isLt)

/-- What holds of every unit state and of sums holds of every generator state. -/
theorem gen_induction (P : Gen → Prop) (h0 : P Gen.zero) (hx : ∀ a b, P a → P b → P (a.xor b))
    (hu0 : ∀ i, i < 32 → P ⟨unitWord i, 0⟩) (hu1 : ∀ i, i < 32 → P ⟨0, unitWord i⟩) (g : Gen) : P g := by
  have ha : ∀ x, P ⟨x, 0⟩ := by
    refine word_induction _ h0 (fun a b pa pb => ?_) hu0
    simpa [Gen.xor] using hx _ _ pa pb
  have hb : ∀ x, P ⟨0, x⟩ := by
    refine word_induction _ h0 (fun a b pa pb => ?_) hu1
    simpa [Gen.xor] using hx _ _ pa pb
  simpa [Gen.xor] using hx _ _ (ha g.s0) (hb g.s1)

/-! ## The characteristic polynomial -/

/-- The characteristic polynomial of the transition, of degree 64. -/
def charPoly : Nat := 0x1053be9da6e2286c1

theorem polyAct_charPoly_units :
    ∀ i, i < 32 → polyAct 65 charPoly ⟨unitWord i, 0⟩ = Gen.zero ∧ polyAct 65 charPoly ⟨0, unitWord i⟩ = Gen.zero := by
  decide +kernel

/-- The characteristic polynomial acts as zero. -/
theorem polyAct_charPoly (v : Gen) : polyAct 65 charPoly v = Gen.zero := by
  refine gen_induction (fun v => polyAct 65 charPoly v = Gen.zero) (polyAct_zero _ _) (fun a b ha hb => ?_) (fun i hi => (polyAct_charPoly_units i hi).1)
    (fun i hi => (polyAct_charPoly_units i hi).2) v
  rw [polyAct_xor, ha, hb, Gen.xor_self]

/-! ## Arithmetic of polynomials modulo the characteristic polynomial -/

/-- Multiplication by `x`. -/
def polyMulX (f : Nat) : Nat := if 2 ^ 63 ≤ f then (2 * f) ^^^ charPoly else 2 * f

/-- Multiplication of the first `n` coefficients of `f` by `g`. -/
def polyMul (n f g : Nat) : Nat :=
  match n with
  | 0 => 0
  | n + 1 => (if f.testBit 0 then g else 0) ^^^ polyMulX (polyMul n (f / 2) g)

/-- The power `x^e`, for `e` of `n` bits, by repeated squaring. -/
def polyPow (n e : Nat) : Nat :=
  match n with
  | 0 => 1
  | n + 1 =>
    let h := polyPow n (e / 2)
    if e.testBit 0 then polyMulX (polyMul 64 h h) else polyMul 64 h h

theorem polyMulX_lt (f : Nat) (h : f < 2 ^ 64) : polyMulX f < 2 ^ 64 := by
  unfold polyMulX
  split
  · rename_i hf
    apply Nat.lt_pow_two_of_testBit
    intro i hi
    have h2 : 2 * f < 2 ^ 65 := by omega
    rw [Nat.testBit_xor]
    by_cases h64 : i = 64
    · subst h64
      have a : (2 * f).testBit 64 = true := by
        rw [Nat.testBit_eq_decide_div_mod_eq]
        simp only [decide_eq_true_eq]
        omega
      have b : charPoly.testBit 64 = true := by decide
      simp [a, b]
    · have hi65 : 2 ^ 65 ≤ 2 ^ i := Nat.pow_le_pow_right (by decide) (by omega)
      have a : (2 * f).testBit i = false := Nat.testBit_lt_two_pow (by omega)
      have b : charPoly.testBit i = false :=
        Nat.testBit_lt_two_pow (Nat.lt_of_lt_of_le (by decide) hi65)
      simp [a, b]
  · omega

theorem polyAct_mulX (f : Nat) (v : Gen) (h : f < 2 ^ 64) :
    polyAct 64 (polyMulX f) v = (polyAct 64 f v).next := by
  rw [← polyAct_extend _ _ _ (polyMulX_lt f h), ← polyAct_double]
  unfold polyMulX
  split
  · rw [polyAct_xor_poly, polyAct_charPoly, Gen.xor_zero]
  · rfl

theorem polyMul_lt (n f g : Nat) (h : g < 2 ^ 64) : polyMul n f g < 2 ^ 64 := by
  induction n generalizing f with
  | zero => simp [polyMul]
  | succ n ih =>
    rw [polyMul]
    refine Nat.xor_lt_two_pow ?_ (polyMulX_lt _ (ih _))
    split <;> omega

theorem polyAct_mul (n f g : Nat) (v : Gen) (h : g < 2 ^ 64) :
    polyAct 64 (polyMul n f g) v = polyAct n f (polyAct 64 g v) := by
  induction n generalizing f with
  | zero => simp [polyMul, polyAct]
  | succ n ih =>
    rw [polyMul, polyAct_xor_poly, polyAct_mulX _ _ (polyMul_lt _ _ _ h), ih, polyAct.eq_2 (f := f)]
    congr 1
    split
    · rfl
    · exact polyAct_zero_poly _ _

theorem polyPow_lt (n e : Nat) : polyPow n e < 2 ^ 64 := by
  induction n generalizing e with
  | zero => simp [polyPow]
  | succ n ih =>
    rw [polyPow]
    split
    · exact polyMulX_lt _ (polyMul_lt _ _ _ (ih _))
    · exact polyMul_lt _ _ _ (ih _)

/-- The power `x^e` acts as `e` steps of the transition. -/
theorem polyAct_pow (n e : Nat) (v : Gen) (h : e < 2 ^ n) : polyAct 64 (polyPow n e) v = Gen.next^[e] v := by
  induction n generalizing e v with
  | zero =>
    have : e = 0 := by omega
    subst this
    exact polyAct_one 63 v
  | succ n ih =>
    have h2 : e / 2 < 2 ^ n := by rw [Nat.pow_succ] at h; omega
    have sq : polyAct 64 (polyMul 64 (polyPow n (e / 2)) (polyPow n (e / 2))) v = Gen.next^[e / 2 + e / 2] v := by
      rw [polyAct_mul _ _ _ _ (polyPow_lt _ _), ih _ _ h2, ih _ _ h2, Function.iterate_add_apply]
    rw [polyPow]
    split
    · rename_i hb
      have : e = (e / 2 + e / 2) + 1 := by
        have : e % 2 = 1 := by simpa [Nat.testBit_zero] using hb
        omega
      rw [polyAct_mulX _ _ (polyMul_lt _ _ _ (polyPow_lt _ _)), sq]
      conv_rhs => rw [this]
      rw [Function.iterate_succ_apply']
    · rename_i hb
      have : e = e / 2 + e / 2 := by
        have : e % 2 = 0 := by simpa [Nat.testBit_zero] using hb
        omega
      rw [sq, ← this]

/-! ## The period -/

/-- The number of generator states other than `(0, 0)`. -/
def fullPeriod : Nat := 2 ^ 64 - 1

theorem polyPow_fullPeriod : polyPow 64 fullPeriod = 1 := by decide +kernel

/-- After `2^64 - 1` steps every generator state returns. -/
theorem next_iterate_fullPeriod (v : Gen) : Gen.next^[fullPeriod] v = v := by
  rw [← polyAct_pow 64 _ _ (by decide), polyPow_fullPeriod]
  exact polyAct_one 63 v

/-- If `x^e - 1` has an inverse `u`, no generator state but `(0, 0)` returns after `e` steps. -/
theorem not_return_of_inverse (e u : Nat) (he : e < 2 ^ 64)
    (hu : polyMul 64 u (polyPow 64 e ^^^ 1) = 1) (v : Gen) (hv : Gen.next^[e] v = v) : v = Gen.zero := by
  have h0 : polyAct 64 (polyPow 64 e ^^^ 1) v = Gen.zero := by
    rw [polyAct_xor_poly, polyAct_pow 64 _ _ he, hv, polyAct_one, Gen.xor_self]
  have h1 := polyAct_mul 64 u (polyPow 64 e ^^^ 1) v (Nat.xor_lt_two_pow (polyPow_lt _ _) (by decide))
  rw [hu, h0, polyAct_zero, polyAct_one] at h1
  exact h1

/-- No generator state but `(0, 0)` returns after `(2^64 - 1) / q` steps, for a prime factor `q` of `2^64 - 1`. -/
theorem not_return_of_factor (q : Nat) (hq : q ∈ [3, 5, 17, 257, 641, 65537, 6700417]) (v : Gen)
    (hv : Gen.next^[fullPeriod / q] v = v) : v = Gen.zero := by
  simp only [List.mem_cons, List.not_mem_nil, or_false] at hq
  rcases hq with rfl | rfl | rfl | rfl | rfl | rfl | rfl
  · exact not_return_of_inverse _ 0xfd64f34d18b1aa77 (by decide) (by decide +kernel) v hv
  · exact not_return_of_inverse _ 0xe899d42abd368284 (by decide) (by decide +kernel) v hv
  · exact not_return_of_inverse _ 0xc5de2f621b25f09a (by decide) (by decide +kernel) v hv
  · exact not_return_of_inverse _ 0xee3c5a7953da7f82 (by decide) (by decide +kernel) v hv
  · exact not_return_of_inverse _ 0xf269980a0f2f9957 (by decide) (by decide +kernel) v hv
  · exact not_return_of_inverse _ 0x3b7c5f0bd3e992f6 (by decide) (by decide +kernel) v hv
  · exact not_return_of_inverse _ 0x4cc5c87d9e634973 (by decide) (by decide +kernel) v hv

theorem prime_factor_fullPeriod (q : Nat) (hq : q.Prime) (hd : q ∣ fullPeriod) :
    q ∈ [3, 5, 17, 257, 641, 65537, 6700417] := by
  have e : fullPeriod = 3 * 5 * 17 * 257 * 641 * 65537 * 6700417 := by decide
  rw [e] at hd
  have pr : ∀ p : Nat, p.Prime → q ∣ p → q = p := fun p hp h => (Nat.prime_dvd_prime_iff_eq hq hp).mp h
  simp only [hq.dvd_mul] at hd
  simp only [List.mem_cons, List.not_mem_nil, or_false]
  rcases hd with (((((h | h) | h) | h) | h) | h) | h
  · exact Or.inl (pr 3 (by norm_num) h)
  · exact Or.inr (Or.inl (pr 5 (by norm_num) h))
  · exact Or.inr (Or.inr (Or.inl (pr 17 (by norm_num) h)))
  · exact Or.inr (Or.inr (Or.inr (Or.inl (pr 257 (by norm_num) h))))
  · exact Or.inr (Or.inr (Or.inr (Or.inr (Or.inl (pr 641 (by norm_num) h)))))
  · exact Or.inr (Or.inr (Or.inr (Or.inr (Or.inr (Or.inl (pr 65537 (by norm_num) h))))))
  · exact Or.inr (Or.inr (Or.inr (Or.inr (Or.inr (Or.inr (pr 6700417 (by norm_num) h))))))

/-- The period of every generator state other than `(0, 0)`. -/
theorem minimalPeriod_next (v : Gen) (hv : v ≠ Gen.zero) : Function.minimalPeriod Gen.next v = fullPeriod := by
  have hd : Function.minimalPeriod Gen.next v ∣ fullPeriod :=
    Function.IsPeriodicPt.minimalPeriod_dvd (next_iterate_fullPeriod v)
  by_contra hne
  obtain ⟨k, hk⟩ := hd
  have hk1 : k ≠ 1 := fun h => hne (by rw [hk, h, Nat.mul_one])
  have hq := Nat.minFac_prime hk1
  obtain ⟨c, hc⟩ := Nat.minFac_dvd k
  have hqd : k.minFac ∣ fullPeriod := by
    rw [hk]
    exact Dvd.dvd.mul_left (Nat.minFac_dvd k) _
  refine hv (not_return_of_factor _ (prime_factor_fullPeriod _ hq hqd) v ?_)
  have hdiv : fullPeriod / k.minFac = Function.minimalPeriod Gen.next v * c := by
    have : fullPeriod = (Function.minimalPeriod Gen.next v * c) * k.minFac := by
      rw [hk]
      conv_lhs => rw [hc]
      ac_rfl
    rw [this, Nat.mul_div_cancel _ hq.pos]
  rw [hdiv]
  exact Function.isPeriodicPt_iff_minimalPeriod_dvd.mpr (Nat.dvd_mul_right _ _)

/-- Two different numbers of steps below the period lead to different states. -/
theorem next_iterate_injective (v : Gen) (hv : v ≠ Gen.zero) (i j : Nat) (hi : i < fullPeriod) (hj : j < fullPeriod)
    (h : Gen.next^[i] v = Gen.next^[j] v) : i = j := by
  rw [← minimalPeriod_next v hv] at hi hj
  exact Function.iterate_injOn_Iio_minimalPeriod hi hj h

/-- The transition maps only `(0, 0)` to `(0, 0)` (R65 item 1). -/
theorem next_eq_zero (v : Gen) (h : v.next = Gen.zero) : v = Gen.zero := by
  have e := next_iterate_fullPeriod v
  rw [show fullPeriod = (fullPeriod - 1) + 1 from rfl, Function.iterate_succ_apply, h] at e
  rw [← e]
  exact Function.iterate_fixed Gen.next_zero _

theorem next_iterate_ne_zero (v : Gen) (hv : v ≠ Gen.zero) (n : Nat) : Gen.next^[n] v ≠ Gen.zero := by
  induction n with
  | zero => exact hv
  | succ n ih =>
    rw [Function.iterate_succ_apply']
    exact fun h => ih (next_eq_zero _ h)

/-- The number of a generator state: `S0` in the high half, `S1` in the low. -/
def Gen.index (g : Gen) : Nat := g.s0.toNat * 2 ^ 32 + g.s1.toNat

theorem Gen.index_lt (g : Gen) : g.index < 2 ^ 64 := by
  have h0 := g.s0.isLt
  have h1 := g.s1.isLt
  unfold Gen.index
  omega

theorem Gen.index_injective (g h : Gen) (e : g.index = h.index) : g = h := by
  have h0 := g.s1.isLt
  have h1 := h.s1.isLt
  unfold Gen.index at e
  obtain ⟨a, b⟩ := g
  obtain ⟨c, d⟩ := h
  simp only at e h0 h1
  simp only [Gen.mk.injEq]
  constructor <;> apply BitVec.eq_of_toNat_eq <;> omega

theorem Gen.index_pos (g : Gen) (h : g ≠ Gen.zero) : 0 < g.index := by
  rcases Nat.eq_zero_or_pos g.index with e | e
  · exact absurd (g.index_injective Gen.zero e) h
  · exact e

/-- From every generator state other than `(0, 0)` every other such state is reached. -/
theorem next_iterate_surjective (v w : Gen) (hv : v ≠ Gen.zero) (hw : w ≠ Gen.zero) :
    ∃ n, n < fullPeriod ∧ Gen.next^[n] v = w := by
  have hb : ∀ g : Gen, g ≠ Gen.zero → g.index - 1 < fullPeriod := by
    intro g hg
    have h0 := g.index_lt
    have h1 := g.index_pos hg
    unfold fullPeriod
    omega
  let visit : Fin fullPeriod → Fin fullPeriod := fun n =>
    ⟨(Gen.next^[n.val] v).index - 1, hb _ (next_iterate_ne_zero v hv _)⟩
  have inj : Function.Injective visit := by
    intro i j h
    have e : (Gen.next^[i.val] v).index - 1 = (Gen.next^[j.val] v).index - 1 := congrArg Fin.val h
    have hi := (Gen.next^[i.val] v).index_pos (next_iterate_ne_zero v hv _)
    have hj := (Gen.next^[j.val] v).index_pos (next_iterate_ne_zero v hv _)
    exact Fin.ext (next_iterate_injective v hv _ _ i.isLt j.isLt (Gen.index_injective _ _ (by omega)))
  obtain ⟨n, hn⟩ := Finite.injective_iff_surjective.mp inj ⟨w.index - 1, hb w hw⟩
  have e : (Gen.next^[n.val] v).index - 1 = w.index - 1 := congrArg Fin.val hn
  have hi := (Gen.next^[n.val] v).index_pos (next_iterate_ne_zero v hv _)
  have hj := w.index_pos hw
  exact ⟨n.val, n.isLt, Gen.index_injective _ _ (by omega)⟩

end Sys2Proof.Machine
end

