-- ==== Sys2Proof/Laws/Draw.lean ====
section
/-! SUPPORT. The rejection loop (R76): when it ends, at which raw word, and that from every generator state other than
`(0, 0)` it does end (R82). -/

namespace Sys2Proof.Machine

/-- Everything the loop can do: it ends at the first raw word that is not below the threshold, if that comes within the
fuel. -/
theorem drawLoop_eq_some_iff (th : Word) (fuel : Nat) (g : Gen) (r : Word × Gen) :
    drawLoop th fuel g = some r ↔
      ∃ n, n < fuel ∧ AcceptedAt th g n ∧ r = ((Gen.next^[n] g).raw, Gen.next^[n + 1] g) := by
  induction fuel generalizing g with
  | zero => simp [drawLoop]
  | succ fuel ih =>
    rw [drawLoop]
    cases hu : ult g.raw th
    · simp only [Bool.false_eq_true, if_false, Option.some.injEq]
      constructor
      · rintro rfl
        exact ⟨0, Nat.succ_pos _, ⟨fun j hj => absurd hj (Nat.not_lt_zero j), hu⟩, rfl⟩
      · rintro ⟨n, -, ⟨hb, -⟩, rfl⟩
        rcases Nat.eq_zero_or_pos n with rfl | hn
        · rfl
        · have := hb 0 hn
          rw [Function.iterate_zero_apply, hu] at this
          exact absurd this (by decide)
    · simp only [if_true, ih]
      constructor
      · rintro ⟨n, hn, ⟨hb, ha⟩, rfl⟩
        refine ⟨n + 1, Nat.succ_lt_succ hn, ⟨fun j hj => ?_, ha⟩, rfl⟩
        cases j with
        | zero => exact hu
        | succ j => exact hb j (Nat.lt_of_succ_lt_succ hj)
      · rintro ⟨n, hn, ⟨hb, ha⟩, rfl⟩
        cases n with
        | zero =>
          rw [Function.iterate_zero_apply, hu] at ha
          exact absurd ha (by decide)
        | succ n =>
          exact ⟨n, Nat.lt_of_succ_lt_succ hn, ⟨fun j hj => hb (j + 1) (Nat.succ_lt_succ hj), ha⟩, rfl⟩

/-- Where the loop runs out of fuel every raw word so far was rejected. -/
theorem drawLoop_eq_none_iff (th : Word) (fuel : Nat) (g : Gen) :
    drawLoop th fuel g = none ↔ ∀ n, n < fuel → ult (Gen.next^[n] g).raw th = true := by
  induction fuel generalizing g with
  | zero => simp [drawLoop]
  | succ fuel ih =>
    rw [drawLoop]
    cases hu : ult g.raw th
    · simp only [Bool.false_eq_true, if_false, reduceCtorEq, false_iff, not_forall]
      exact ⟨0, Nat.succ_pos _, by simp [hu]⟩
    · simp only [if_true, ih]
      constructor
      · intro h n hn
        cases n with
        | zero => exact hu
        | succ n => exact h n (Nat.lt_of_succ_lt_succ hn)
      · exact fun h n hn => h (n + 1) (Nat.succ_lt_succ hn)

/-- At most one number of advances ends the loop. -/
theorem AcceptedAt.unique {th : Word} {g : Gen} {m n : Nat} (hm : AcceptedAt th g m) (hn : AcceptedAt th g n) :
    m = n := by
  rcases Nat.lt_trichotomy m n with h | h | h
  · exact absurd (hn.1 m h) (by rw [hm.2]; decide)
  · exact h
  · exact absurd (hm.1 n h) (by rw [hn.2]; decide)

/-- A generator state whose raw word is the largest word: no threshold rejects it. -/
def Gen.top : Gen := ⟨0xf4212abb, 0⟩

theorem Gen.top_raw : Gen.top.raw = 0xFFFFFFFF := by decide

theorem Gen.top_accepted (th : Word) : ult Gen.top.raw th = false := by
  rw [Gen.top_raw]
  have := th.isLt
  simp only [ult, BitVec.ult, decide_eq_false_iff_not]
  have e : (0xFFFFFFFF : Word).toNat = 2 ^ 32 - 1 := by decide
  omega

/-- From every generator state other than `(0, 0)` the rejection loop ends, within the period (R82). -/
theorem exists_acceptedAt (th : Word) (g : Gen) (hg : g ≠ Gen.zero) :
    ∃ n, n < fullPeriod ∧ AcceptedAt th g n := by
  obtain ⟨m, hm, e⟩ := next_iterate_surjective g Gen.top hg (by decide)
  have htop : ult (Gen.next^[m] g).raw th = false := e ▸ Gen.top_accepted th
  have hex : ∃ n, ult (Gen.next^[n] g).raw th = false := ⟨m, htop⟩
  have hle : Nat.find hex ≤ m := Nat.find_min' hex htop
  refine ⟨Nat.find hex, Nat.lt_of_le_of_lt hle hm, fun j hj => ?_, Nat.find_spec hex⟩
  simpa using Nat.find_min hex hj

theorem drawFuel_pos (g : Gen) : 0 < drawFuel g := by
  unfold drawFuel
  omega

theorem fullPeriod_le_drawFuel (g : Gen) : fullPeriod ≤ drawFuel g := by
  unfold drawFuel fullPeriod
  omega

/-- `drawLoop` with `drawFuel` answers nothing exactly when the loop of R76 never ends: the fuel is no cap. -/
theorem drawLoop_none_iff (th : Word) (g : Gen) :
    drawLoop th (drawFuel g) g = none ↔ ∀ n, ult (Gen.next^[n] g).raw th = true := by
  rw [drawLoop_eq_none_iff]
  constructor
  · intro h
    by_cases hg : g = Gen.zero
    · intro n
      have h0 := h 0 (drawFuel_pos g)
      rwa [hg, Function.iterate_fixed Gen.next_zero] at h0 ⊢
    · obtain ⟨n, hn, ha⟩ := exists_acceptedAt th g hg
      have := h n (Nat.lt_of_lt_of_le hn (fullPeriod_le_drawFuel g))
      rw [ha.2] at this
      exact absurd this (by decide)
  · exact fun h n _ => h n

/-- Where the loop ends, what `drawInto` writes. -/
theorem drawInto_of_some (bound : Word) (result : Word → Word) (s : State) (r : Word × Gen)
    (h : drawLoop (threshold bound) (drawFuel s.gen) s.gen = some r) :
    drawInto bound result s = .next ((s.setGen r.2).setRes (result (umod r.1 bound))) := by
  rw [drawInto, boundedDraw, h]
  rfl

/-- Where the loop never ends, `drawInto` hangs. -/
theorem drawInto_of_none (bound : Word) (result : Word → Word) (s : State)
    (h : drawLoop (threshold bound) (drawFuel s.gen) s.gen = none) : drawInto bound result s = .fault .hang := by
  rw [drawInto, boundedDraw, h]
  rfl

/-- Everything `drawInto` can do: the result of the first accepted raw word, or a hang where no raw word is ever
accepted. -/
theorem drawInto_cases (bound : Word) (result : Word → Word) (s : State) :
    (∃ n, AcceptedAt (threshold bound) s.gen n ∧
      drawInto bound result s =
        .next ((s.setGen (Gen.next^[n + 1] s.gen)).setRes (result (umod (Gen.next^[n] s.gen).raw bound)))) ∨
    ((∀ n, ult (Gen.next^[n] s.gen).raw (threshold bound) = true) ∧ drawInto bound result s = .fault .hang) := by
  cases h : drawLoop (threshold bound) (drawFuel s.gen) s.gen with
  | none => exact .inr ⟨(drawLoop_none_iff _ _).mp h, drawInto_of_none _ _ _ h⟩
  | some r =>
    obtain ⟨n, -, ha, rfl⟩ := (drawLoop_eq_some_iff _ _ _ _).mp h
    exact .inl ⟨n, ha, drawInto_of_some _ _ _ _ h⟩

/-- A draw from a generator state other than `(0, 0)` completes (R82, R168). -/
theorem drawInto_completes (bound : Word) (result : Word → Word) (s : State) (hg : s.gen ≠ Gen.zero) :
    ∃ n, AcceptedAt (threshold bound) s.gen n ∧
      drawInto bound result s =
        .next ((s.setGen (Gen.next^[n + 1] s.gen)).setRes (result (umod (Gen.next^[n] s.gen).raw bound))) := by
  rcases drawInto_cases bound result s with h | ⟨h, -⟩
  · exact h
  · obtain ⟨n, -, ha⟩ := exists_acceptedAt (threshold bound) s.gen hg
    have := h n
    rw [ha.2] at this
    exact absurd this (by decide)

end Sys2Proof.Machine
end

