-- ==== Sys2Proof/Laws/Float.lean ====
section
/-! SUPPORT. What the two float conversions give, as natural numbers: zero, or a biased exponent and a fraction (R90, R92,
R93); and the order of the numbers (00_scope.md section 6.1). -/

namespace Sys2Proof.Machine

/-- `Trunc` keeps the top 24 bits (R90). -/
theorem trunc_toNat (b : Word) : (trunc b).toNat = b.toNat / 2 ^ 8 := by
  rw [trunc, shr32, BitVec.toNat_ushiftRight, Nat.shiftRight_eq_div_pow]

theorem trunc_lt (b : Word) : (trunc b).toNat < 2 ^ 24 := by
  rw [trunc_toNat]
  have := b.isLt
  omega

theorem trunc_eq_zero_iff (b : Word) : trunc b = 0 ↔ b.toNat / 2 ^ 8 = 0 := by
  rw [← trunc_toNat]
  exact ⟨fun h => by rw [h]; rfl, fun h => BitVec.eq_of_toNat_eq h⟩

/-- `p`, the position of the highest set bit, and `m`, the value normalised into `[2^23, 2^24)` (R92). -/
structure Normalises (v p m : Nat) : Prop where
  lower : 2 ^ p ≤ v
  upper : v < 2 ^ (p + 1)
  p_le : p ≤ 23
  m_eq : m = v * 2 ^ (23 - p)
  m_lower : 2 ^ 23 ≤ m
  m_upper : m < 2 ^ 24

theorem normalises (v : Word) (h0 : v.toNat ≠ 0) (h : v.toNat < 2 ^ 24) :
    Normalises v.toNat (highBit v) (normalised v) := by
  have l : 2 ^ highBit v ≤ v.toNat := Nat.log2_self_le h0
  have u : v.toNat < 2 ^ (highBit v + 1) := Nat.lt_log2_self
  have p : highBit v ≤ 23 := Nat.lt_succ_iff.mp ((Nat.log2_lt h0).mpr h)
  have e : ∀ j, 2 ^ (highBit v + j) * 2 ^ (23 - highBit v) = 2 ^ (23 + j) := fun j => by
    rw [← Nat.pow_add]
    congr 1
    omega
  exact {
    lower := l
    upper := u
    p_le := p
    m_eq := rfl
    m_lower := (e 0).symm.le.trans (Nat.mul_le_mul_right _ l)
    m_upper := (Nat.mul_lt_mul_of_pos_right u (Nat.two_pow_pos _)).trans_eq (e 1) }

theorem eunitBits_of_zero (b : Word) (h : b.toNat / 2 ^ 8 = 0) : eunitBits b = 0 := by
  rw [eunitBits, if_pos ((trunc_eq_zero_iff b).mpr h)]

theorem unitBits_of_zero (b : Word) (h : b.toNat / 2 ^ 8 = 0) : unitBits b = 0 := by
  rw [unitBits, if_pos ((trunc_eq_zero_iff b).mpr h)]

/-- The pattern of `EunitFromBits` for a value that is not 0: exponent field `p + 103`, fraction field `m - 2^23` (R93). -/
theorem eunitBits_toNat (b : Word) (h : b.toNat / 2 ^ 8 ≠ 0) :
    ∃ p m, Normalises (b.toNat / 2 ^ 8) p m ∧ (eunitBits b).toNat = (p + 103) * 2 ^ 23 + (m - 2 ^ 23) := by
  have n := normalises (trunc b) (trunc_toNat b ▸ h) (trunc_lt b)
  rw [trunc_toNat] at n
  refine ⟨_, _, n, ?_⟩
  rw [eunitBits, if_neg (mt (trunc_eq_zero_iff b).mp h), BitVec.toNat_ofNat]
  obtain ⟨-, -, hp, -, h1, h2⟩ := n
  generalize highBit (trunc b) = p at *
  generalize normalised (trunc b) = m at *
  omega

/-- The pattern of `UnitFromBits` for a value that is not 0 is one more (R92). -/
theorem unitBits_toNat (b : Word) (h : b.toNat / 2 ^ 8 ≠ 0) :
    ∃ p m, Normalises (b.toNat / 2 ^ 8) p m ∧ (unitBits b).toNat = (p + 103) * 2 ^ 23 + (m - 2 ^ 23) + 1 := by
  have n := normalises (trunc b) (trunc_toNat b ▸ h) (trunc_lt b)
  rw [trunc_toNat] at n
  refine ⟨_, _, n, ?_⟩
  rw [unitBits, if_neg (mt (trunc_eq_zero_iff b).mp h), BitVec.toNat_ofNat]
  obtain ⟨-, -, hp, -, h1, h2⟩ := n
  generalize highBit (trunc b) = p at *
  generalize normalised (trunc b) = m at *
  omega

/-! ## The order of the numbers (log 15) -/

theorem f32IsNaN_of_finite (x : Word) (h : f32Finite x) : f32IsNaN x = false := by
  unfold f32Finite at h
  rw [f32IsNaN, decide_eq_false_iff_not]
  omega

theorem f32Le_of_finite (x y : Word) (hx : f32Finite x) (hy : f32Finite y) :
    f32Le x y = decide (f32Rank x ≤ f32Rank y) := by
  rw [f32Le, f32IsNaN_of_finite x hx, f32IsNaN_of_finite y hy]
  rfl

theorem f32Negative_of_finite (x : Word) (h : f32Finite x) : f32Negative x = decide (f32Rank x < 0) := by
  rw [f32Negative, f32IsNaN_of_finite x h]
  rfl

/-- An ordered pair of bounds is a pair of numbers. -/
theorem not_isNaN_of_f32Le (x y : Word) (h : f32Le x y = true) : f32IsNaN x = false ∧ f32IsNaN y = false := by
  simp only [f32Le, Bool.and_eq_true, Bool.not_eq_true'] at h
  exact h.1

end Sys2Proof.Machine
end

