-- ==== Sys2Proof/Laws/PerInstr.lean ====
section
/-! SUPPORT. One law per command about it as syntax: its command word is legal (R46, R50). -/

namespace Sys2Proof.Laws.LegalWord

/-- The word of the command passes both checks on command words (R46). -/
def Statement (i : Instr) : Prop := wordLegal (encode i) = true

theorem seed : Statement .seed := by unfold Statement; decide
theorem ldst : Statement .ldst := by unfold Statement; decide
theorem clrErr : Statement .clrErr := by unfold Statement; decide
theorem mix32 : Statement .mix32 := by unfold Statement; decide
theorem advance : Statement .advance := by unfold Statement; decide
theorem u32To : Statement .u32To := by unfold Statement; decide
theorem u32In : Statement .u32In := by unfold Statement; decide
theorem s32In : Statement .s32In := by unfold Statement; decide
theorem oneIn : Statement .oneIn := by unfold Statement; decide
theorem unitFromBits : Statement .unitFromBits := by unfold Statement; decide
theorem eunitFromBits : Statement .eunitFromBits := by unfold Statement; decide
theorem floatUnit : Statement .floatUnit := by unfold Statement; decide
theorem floatEunit : Statement .floatEunit := by unfold Statement; decide
theorem shuffle : Statement .shuffle := by unfold Statement; decide

end Sys2Proof.Laws.LegalWord
end

