-- ==== Sys2Proof/Laws/Shuffle.lean ====
section
/-! SUPPORT. The Feistel network is a bijection of `[0, 4^k)` (R109) and the cycle walk ends (R107). -/

namespace Sys2Proof.Machine

/-! ## The width (R105) -/

/-- `HalfBits(count)` is at most 16, `4^k` exceeds the count, and no smaller power of 4 does (R105). -/
theorem halfBits_spec (count : Word) :
    halfBits count ≤ 16 ∧ count.toNat < 4 ^ halfBits count ∧ ∀ j, j < halfBits count → 4 ^ j ≤ count.toNat := by
  have hlt : count.toNat < 4 ^ 16 := count.isLt
  cases h : (List.range 17).find? fun k => decide (count.toNat < 4 ^ k) with
  | none =>
    rw [List.find?_eq_none] at h
    exact absurd hlt (by simpa using h 16 (by decide))
  | some k =>
    have e : halfBits count = k := by simp [halfBits, h]
    rw [List.find?_range_eq_some] at h
    obtain ⟨h1, h2, h3⟩ := h
    rw [e]
    refine ⟨by simpa [Nat.lt_succ_iff] using h2, by simpa using h1, fun j hj => ?_⟩
    simpa using h3 j hj

theorem halfBits_pos (count : Word) (h : count ≠ 0) : 1 ≤ halfBits count := by
  have h1 := (halfBits_spec count).2.1
  rcases Nat.eq_zero_or_pos (halfBits count) with e | e
  · rw [e] at h1
    exact absurd (BitVec.eq_of_toNat_eq (by simpa using h1)) h
  · exact e

/-! ## The halves (R106) -/

theorem and_rightMask_toNat (k : Nat) (hk : k ≤ 16) (x : Word) : (and32 x (rightMask k)).toNat = x.toNat % 2 ^ k := by
  have h : 2 ^ k ≤ 2 ^ 16 := Nat.pow_le_pow_right (by decide) hk
  have hp : 0 < 2 ^ k := Nat.two_pow_pos k
  have : (rightMask k).toNat = 2 ^ k - 1 := by
    rw [rightMask, BitVec.toNat_ofNat, Nat.mod_eq_of_lt (by omega)]
  rw [and32, BitVec.toNat_and, this, Nat.and_two_pow_sub_one_eq_mod]

/-- Both halves are `k`-bit values. -/
def IsHalves (k : Nat) (h : Word × Word) : Prop := h.1.toNat < 2 ^ k ∧ h.2.toNat < 2 ^ k

theorem splitHalves_isHalves (k : Nat) (hk : k ≤ 16) (x : Word) : IsHalves k (splitHalves k x) := by
  constructor <;> simp only [splitHalves, and_rightMask_toNat k hk] <;> exact Nat.mod_lt _ (Nat.two_pow_pos k)

theorem joinHalves_toNat (k : Nat) (hk : k ≤ 16) (h : Word × Word) (hh : IsHalves k h) :
    (joinHalves k h).toNat = h.1.toNat * 2 ^ k + h.2.toNat := by
  obtain ⟨h1, h2⟩ := hh
  have hp : 2 ^ k * 2 ^ k ≤ 2 ^ 32 := by
    rw [← Nat.pow_add]
    exact Nat.pow_le_pow_right (by decide) (by omega)
  have hb : h.1.toNat * 2 ^ k + h.2.toNat < 2 ^ k * 2 ^ k := by nlinarith
  have hl : h.1.toNat * 2 ^ k < 2 ^ 32 := by omega
  rw [joinHalves, add32, shl32, BitVec.toNat_add, BitVec.toNat_shiftLeft, Nat.shiftLeft_eq, Nat.mod_eq_of_lt hl,
    Nat.mod_eq_of_lt (by omega)]

theorem joinHalves_lt (k : Nat) (hk : k ≤ 16) (h : Word × Word) (hh : IsHalves k h) :
    (joinHalves k h).toNat < 4 ^ k := by
  rw [joinHalves_toNat k hk h hh, show (4 : Nat) = 2 * 2 from rfl, Nat.mul_pow]
  obtain ⟨h1, h2⟩ := hh
  nlinarith

theorem joinHalves_injective (k : Nat) (hk : k ≤ 16) (a b : Word × Word) (ha : IsHalves k a) (hb : IsHalves k b)
    (e : joinHalves k a = joinHalves k b) : a = b := by
  have e2 := congrArg BitVec.toNat e
  rw [joinHalves_toNat k hk a ha, joinHalves_toNat k hk b hb] at e2
  have hp := Nat.two_pow_pos k
  have em : a.2.toNat = b.2.toNat := by
    have := congrArg (· % 2 ^ k) e2
    simpa [Nat.add_comm, Nat.mod_eq_of_lt ha.2, Nat.mod_eq_of_lt hb.2] using this
  have ed : a.1.toNat = b.1.toNat := by
    rw [em] at e2
    exact Nat.eq_of_mul_eq_mul_right hp (Nat.add_right_cancel e2)
  exact Prod.ext (BitVec.eq_of_toNat_eq ed) (BitVec.eq_of_toNat_eq em)

theorem splitHalves_injective (k : Nat) (hk : k ≤ 16) (x y : Word) (hx : x.toNat < 4 ^ k) (hy : y.toNat < 4 ^ k)
    (e : splitHalves k x = splitHalves k y) : x = y := by
  have hp := Nat.two_pow_pos k
  rw [show (4 : Nat) = 2 * 2 from rfl, Nat.mul_pow] at hx hy
  have e1 := congrArg (fun p => p.1.toNat) e
  have e2 := congrArg (fun p => p.2.toNat) e
  simp only [splitHalves, and_rightMask_toNat k hk, shr32, BitVec.toNat_ushiftRight, Nat.shiftRight_eq_div_pow] at e1 e2
  rw [Nat.mod_eq_of_lt (Nat.div_lt_of_lt_mul hx), Nat.mod_eq_of_lt (Nat.div_lt_of_lt_mul hy)] at e1
  apply BitVec.eq_of_toNat_eq
  rw [← Nat.div_add_mod x.toNat (2 ^ k), ← Nat.div_add_mod y.toNat (2 ^ k), e1, e2]

/-! ## The rounds (R106, R109) -/

theorem feistelRound_isHalves (k : Nat) (hk : k ≤ 16) (seed : Word) (h : Word × Word) (hh : IsHalves k h) :
    IsHalves k (feistelRound k seed h) := by
  refine ⟨hh.2, ?_⟩
  simp only [feistelRound, xor32, BitVec.toNat_xor]
  refine Nat.xor_lt_two_pow hh.1 ?_
  have := and_rightMask_toNat k hk (finalizer (h.2 ^^^ seed))
  rw [this]
  exact Nat.mod_lt _ (Nat.two_pow_pos k)

/-- One round is undone from its result, whatever the mixing function is (R109). -/
theorem feistelRound_injective (k : Nat) (seed : Word) : Function.Injective (feistelRound k seed) := by
  rintro ⟨a, b⟩ ⟨c, d⟩ e
  simp only [feistelRound, xor32, Prod.mk.injEq] at e
  obtain ⟨rfl, e⟩ := e
  rw [BitVec.xor_left_inj] at e
  rw [e]

theorem feistel_lt (k : Nat) (hk : k ≤ 16) (seed x : Word) : (feistel k seed x).toNat < 4 ^ k := by
  have h0 := splitHalves_isHalves k hk x
  have h1 := feistelRound_isHalves k hk seed _ h0
  have h2 := feistelRound_isHalves k hk seed _ h1
  have h3 := feistelRound_isHalves k hk seed _ h2
  exact joinHalves_lt k hk _ (feistelRound_isHalves k hk seed _ h3)

theorem feistel_injective (k : Nat) (hk : k ≤ 16) (seed x y : Word) (hx : x.toNat < 4 ^ k) (hy : y.toNat < 4 ^ k)
    (e : feistel k seed x = feistel k seed y) : x = y := by
  have hh : ∀ z, IsHalves k (feistelRound k seed (feistelRound k seed (feistelRound k seed (feistelRound k seed
      (splitHalves k z))))) := fun z =>
    feistelRound_isHalves k hk seed _ (feistelRound_isHalves k hk seed _ (feistelRound_isHalves k hk seed _
      (feistelRound_isHalves k hk seed _ (splitHalves_isHalves k hk z))))
  have e1 := joinHalves_injective k hk _ _ (hh x) (hh y) e
  have inj := feistelRound_injective k seed
  exact splitHalves_injective k hk x y hx hy (inj (inj (inj (inj e1))))

theorem feistel_iterate_lt (k : Nat) (hk : k ≤ 16) (seed x : Word) (hx : x.toNat < 4 ^ k) (n : Nat) :
    ((feistel k seed)^[n] x).toNat < 4 ^ k := by
  cases n with
  | zero => exact hx
  | succ n =>
    rw [Function.iterate_succ_apply']
    exact feistel_lt k hk seed _

/-- If two iterates of an element of the domain are equal, the element itself recurs after their distance. -/
theorem feistel_iterate_cancel (k : Nat) (hk : k ≤ 16) (seed x : Word) (hx : x.toNat < 4 ^ k) (i d : Nat)
    (e : (feistel k seed)^[i + d] x = (feistel k seed)^[i] x) : (feistel k seed)^[d] x = x := by
  induction i with
  | zero => simpa using e
  | succ i ih =>
    rw [show i + 1 + d = (i + d) + 1 by omega, Function.iterate_succ_apply', Function.iterate_succ_apply'] at e
    exact ih (feistel_injective k hk seed _ _ (feistel_iterate_lt k hk seed x hx _)
      (feistel_iterate_lt k hk seed x hx _) e)

/-! ## The cycle walk (R107) -/

/-- Everything the walk can do: it ends at the first value below the count, if that comes within the fuel. -/
theorem cycleWalk_eq_some_iff (count seed : Word) (k fuel : Nat) (x y : Word) :
    cycleWalk count seed k fuel x = some y ↔
      ∃ n, n ≤ fuel ∧ ReturnsAt count seed k x n ∧ y = (feistel k seed)^[n] x := by
  induction fuel generalizing x with
  | zero =>
    simp only [cycleWalk, reduceCtorEq, false_iff, not_exists]
    rintro n ⟨hn, ⟨h1, -⟩, -⟩
    omega
  | succ fuel ih =>
    rw [cycleWalk]
    cases hu : ult (feistel k seed x) count
    · simp only [Bool.false_eq_true, if_false, ih]
      constructor
      · rintro ⟨n, hn, ⟨h1, hb, ha⟩, rfl⟩
        refine ⟨n + 1, Nat.succ_le_succ hn, ⟨Nat.succ_pos _, fun j h1j hj => ?_, ha⟩, rfl⟩
        cases j with
        | zero => omega
        | succ j =>
          rcases Nat.eq_zero_or_pos j with rfl | hjp
          · exact hu
          · exact hb j hjp (Nat.lt_of_succ_lt_succ hj)
      · rintro ⟨n, hn, ⟨h1, hb, ha⟩, rfl⟩
        cases n with
        | zero => omega
        | succ n =>
          rcases Nat.eq_zero_or_pos n with rfl | hnp
          · rw [Function.iterate_succ_apply, Function.iterate_zero_apply, hu] at ha
            exact absurd ha (by decide)
          · exact ⟨n, Nat.le_of_succ_le_succ hn,
              ⟨hnp, fun j h1j hj => hb (j + 1) (Nat.succ_pos _) (Nat.succ_lt_succ hj), ha⟩, rfl⟩
    · simp only [if_true, Option.some.injEq]
      constructor
      · rintro rfl
        exact ⟨1, Nat.succ_le_succ (Nat.zero_le _), ⟨Nat.le_refl _, fun j h1 h2 => by omega, hu⟩, rfl⟩
      · rintro ⟨n, -, ⟨h1, hb, -⟩, rfl⟩
        rcases Nat.lt_or_ge 1 n with h | h
        · have := hb 1 (Nat.le_refl _) h
          rw [Function.iterate_succ_apply, Function.iterate_zero_apply, hu] at this
          exact absurd this (by decide)
        · have : n = 1 := by omega
          subst this
          rfl

/-- At most one number of evaluations ends the walk. -/
theorem ReturnsAt.unique {count seed x : Word} {k m n : Nat} (hm : ReturnsAt count seed k x m)
    (hn : ReturnsAt count seed k x n) : m = n := by
  rcases Nat.lt_trichotomy m n with h | h | h
  · exact absurd (hn.2.1 m hm.1 h) (by rw [hm.2.2]; decide)
  · exact h
  · exact absurd (hm.2.1 n hn.1 h) (by rw [hn.2.2]; decide)

theorem ult_eq_true_iff (a b : Word) : ult a b = true ↔ a.toNat < b.toNat := by simp [ult, BitVec.ult]

theorem ult_eq_false_iff (a b : Word) : ult a b = false ↔ b.toNat ≤ a.toNat := by simp [ult, BitVec.ult]

/-- The walk from an index below the count ends after at most `4^k - count + 1` evaluations (R107). -/
theorem exists_returnsAt (index count seed : Word) (k : Nat) (hk : k ≤ 16) (hc : count.toNat ≤ 4 ^ k)
    (hi : ult index count = true) :
    ∃ n, n ≤ 4 ^ k - count.toNat + 1 ∧ ReturnsAt count seed k index n := by
  have hi' := (ult_eq_true_iff _ _).mp hi
  have hx : index.toNat < 4 ^ k := Nat.lt_of_lt_of_le hi' hc
  have hex : ∃ n, 1 ≤ n ∧ n ≤ 4 ^ k - count.toNat + 1 ∧ ult ((feistel k seed)^[n] index) count = true := by
    by_contra hno
    have hge : ∀ n, 1 ≤ n → n ≤ 4 ^ k - count.toNat + 1 → count.toNat ≤ ((feistel k seed)^[n] index).toNat := by
      intro n h1 h2
      rw [← ult_eq_false_iff]
      cases e : ult ((feistel k seed)^[n] index) count
      · rfl
      · exact absurd ⟨n, h1, h2, e⟩ hno
    have hlt := feistel_iterate_lt k hk seed index hx
    let visit : Fin (4 ^ k - count.toNat + 1) → Fin (4 ^ k - count.toNat) := fun n =>
      ⟨((feistel k seed)^[n.val + 1] index).toNat - count.toNat, by
        have h1 := hge (n.val + 1) (Nat.succ_pos _) n.isLt
        have h2 := hlt (n.val + 1)
        omega⟩
    have inj : Function.Injective visit := by
      have key : ∀ i j : Fin (4 ^ k - count.toNat + 1), i.val < j.val → visit i = visit j → False := by
        intro i j hij e
        have e1 : ((feistel k seed)^[i.val + 1] index).toNat - count.toNat =
            ((feistel k seed)^[j.val + 1] index).toNat - count.toNat := congrArg Fin.val e
        have h1 := hge (i.val + 1) (Nat.succ_pos _) i.isLt
        have h2 := hge (j.val + 1) (Nat.succ_pos _) j.isLt
        have e2 : (feistel k seed)^[(i.val + 1) + (j.val - i.val)] index = (feistel k seed)^[i.val + 1] index := by
          rw [show i.val + 1 + (j.val - i.val) = j.val + 1 by omega]
          exact BitVec.eq_of_toNat_eq (by omega)
        have e3 := feistel_iterate_cancel k hk seed index hx _ _ e2
        have h3 := hge (j.val - i.val) (by omega) (by have := j.isLt; omega)
        rw [e3] at h3
        omega
      intro i j e
      rcases Nat.lt_trichotomy i.val j.val with h | h | h
      · exact absurd e (fun e => key i j h e)
      · exact Fin.ext h
      · exact absurd e.symm (fun e => key j i h e)
    have := Fintype.card_le_of_injective visit inj
    simp at this
  have hspec := Nat.find_spec hex
  refine ⟨Nat.find hex, hspec.2.1, hspec.1, fun j h1 hj => ?_, hspec.2.2⟩
  have hmin := Nat.find_min hex hj
  cases e : ult ((feistel k seed)^[j] index) count
  · rfl
  · exact absurd ⟨h1, Nat.le_trans (Nat.le_of_lt hj) hspec.2.1, e⟩ hmin

/-- `Shuffle(index, count, seed)` for an index below the count: the first iterate of the network below the count (R107). -/
theorem shuffleIndex_completes (index count seed : Word) (hi : ult index count = true) :
    ∃ n, ReturnsAt count seed (halfBits count) index n ∧
      shuffleIndex index count seed = some ((feistel (halfBits count) seed)^[n] index) := by
  obtain ⟨hk, hc, -⟩ := halfBits_spec count
  obtain ⟨n, hn, hr⟩ := exists_returnsAt index count seed _ hk (Nat.le_of_lt hc) hi
  exact ⟨n, hr, (cycleWalk_eq_some_iff _ _ _ _ _ _).mpr ⟨n, by omega, hr, rfl⟩⟩

/-- The walk of SHUFFLE never hangs (R107, R166). -/
theorem walkInto_completes (s : State) (hi : ult s.arg0 s.arg1 = true) :
    ∃ n, ReturnsAt s.arg1 s.arg2 (halfBits s.arg1) s.arg0 n ∧
      walkInto s = .next (s.setRes ((feistel (halfBits s.arg1) s.arg2)^[n] s.arg0)) := by
  obtain ⟨n, hr, e⟩ := shuffleIndex_completes s.arg0 s.arg1 s.arg2 hi
  exact ⟨n, hr, by rw [walkInto, e]; rfl⟩

end Sys2Proof.Machine
end

