-- ==== Sys2Proof/Laws/Step.lean ====
section
/-! SUPPORT. Everything a command and a step can do, said once: the inversion lemmas from which frames and invariants follow. -/

namespace Sys2Proof.Machine

/-- What a state-consuming command writes when it runs its own rule: a result, and the generator state some number of
advances on (R10; none only for ONE_IN with chance 0, R80). -/
def DrawsTo (s t : State) : Prop := ∃ n v, t = (s.setGen (Gen.next^[n] s.gen)).setRes v

/-- The ways a command can lead from one state to the next. -/
inductive CommandEffect (i : Instr) (s : State) : State → Prop where
  /-- CLRERR leaves the faulted state (R115). -/
  | cleared (hi : i = .clrErr) : CommandEffect i s s.clearFault
  /-- Discarded by a faulted engine (R144). -/
  | discarded (hi : i ≠ .clrErr) (hf : s.faulted = true) : CommandEffect i s s
  /-- Refused with a fault (R143). -/
  | refused (hi : i ≠ .clrErr) (hf : s.faulted = false) (c : FaultCode) : CommandEffect i s (s.raiseFault c (encode i))
  /-- SEED (R63). -/
  | seeds (hi : i = .seed) (hf : s.faulted = false) : CommandEffect i s (s.install (seedGen s.arg0))
  /-- LDST of a pair that is not `(0, 0)` (R67). -/
  | loads (hi : i = .ldst) (hf : s.faulted = false) (hg : (⟨s.arg0, s.arg1⟩ : Gen) ≠ Gen.zero) :
      CommandEffect i s (s.install ⟨s.arg0, s.arg1⟩)
  /-- A command that needs no generator state writes its result (R62, R94, R95, R108). -/
  | computes (hi : i = .mix32 ∨ i = .unitFromBits ∨ i = .eunitFromBits ∨ i = .shuffle) (hf : s.faulted = false)
      (v : Word) : CommandEffect i s (s.setRes v)
  /-- A state-consuming command advances and writes its result (R66, R77 to R80, R96, R97). -/
  | draws (hi : needsSeeded i = true) (hf : s.faulted = false) (hs : s.seeded = true) (t : State) (ht : DrawsTo s t) :
      CommandEffect i s t

/-- What passing the gate of R49 leaves to show: what the command's own rule does. -/
theorem acceptCommand_effect (i : Instr) (run : State → Result) (s t : State) (hi : i ≠ .clrErr)
    (h : acceptCommand i run s = .next t)
    (hrun : s.faulted = false → (needsSeeded i = true → s.seeded = true) → run s = .next t → CommandEffect i s t) :
    CommandEffect i s t := by
  rcases acceptCommand_cases i run s with ⟨hf, e⟩ | ⟨hf, -, -, e⟩ | ⟨hf, hs, e⟩ <;> rw [e] at h
  · cases h
    exact .discarded hi hf
  · cases h
    exact .refused hi hf _
  · exact hrun hf hs h

theorem drawInto_drawsTo (bound : Word) (result : Word → Word) (s t : State) (h : drawInto bound result s = .next t) :
    DrawsTo s t := by
  rcases drawInto_cases bound result s with ⟨n, -, e⟩ | ⟨-, e⟩ <;> rw [e] at h <;> cases h
  exact ⟨n + 1, _, rfl⟩

theorem drawRange_effect (i : Instr) (s t : State) (hi : i ≠ .clrErr) (hn : needsSeeded i = true)
    (hf : s.faulted = false) (hs : s.seeded = true) (h : drawRange i s = .next t) : CommandEffect i s t := by
  unfold drawRange at h
  split at h
  · cases h
    exact .refused hi hf _
  · exact .draws hn hf hs _ (drawInto_drawsTo _ _ _ _ h)

/-- Everything a command can do when it answers a next state. -/
theorem exec_effect (i : Instr) (s t : State) (h : exec i s = .next t) : CommandEffect i s t := by
  cases i with
  | clrErr =>
    cases h
    exact .cleared rfl
  | seed =>
    rw [exec, execSeed] at h
    refine acceptCommand_effect _ _ _ _ (by decide) h fun hf _ hr => ?_
    cases hr
    exact .seeds rfl hf
  | ldst =>
    rw [exec, execLdst] at h
    refine acceptCommand_effect _ _ _ _ (by decide) h fun hf _ hr => ?_
    split at hr
    · cases hr
      exact .refused (by decide) hf _
    · rename_i hz
      cases hr
      exact .loads rfl hf fun e => hz (by simpa [Gen.zero] using e)
  | mix32 =>
    rw [exec, execMix32] at h
    refine acceptCommand_effect _ _ _ _ (by decide) h fun hf _ hr => ?_
    cases hr
    exact .computes (by decide) hf _
  | unitFromBits =>
    rw [exec, execUnitFromBits] at h
    refine acceptCommand_effect _ _ _ _ (by decide) h fun hf _ hr => ?_
    cases hr
    exact .computes (by decide) hf _
  | eunitFromBits =>
    rw [exec, execEunitFromBits] at h
    refine acceptCommand_effect _ _ _ _ (by decide) h fun hf _ hr => ?_
    cases hr
    exact .computes (by decide) hf _
  | shuffle =>
    rw [exec, execShuffle] at h
    refine acceptCommand_effect _ _ _ _ (by decide) h fun hf _ hr => ?_
    split at hr
    · rename_i hu
      obtain ⟨n, -, e⟩ := walkInto_completes s hu
      rw [e] at hr
      cases hr
      exact .computes (by decide) hf _
    · cases hr
      exact .refused (by decide) hf _
  | advance =>
    rw [exec, execAdvance] at h
    refine acceptCommand_effect _ _ _ _ (by decide) h fun hf hs hr => ?_
    cases hr
    exact .draws rfl hf (hs rfl) _ ⟨1, _, rfl⟩
  | floatUnit =>
    rw [exec, execFloatUnit] at h
    refine acceptCommand_effect _ _ _ _ (by decide) h fun hf hs hr => ?_
    cases hr
    exact .draws rfl hf (hs rfl) _ ⟨1, _, rfl⟩
  | floatEunit =>
    rw [exec, execFloatEunit] at h
    refine acceptCommand_effect _ _ _ _ (by decide) h fun hf hs hr => ?_
    cases hr
    exact .draws rfl hf (hs rfl) _ ⟨1, _, rfl⟩
  | u32To =>
    rw [exec, execU32To] at h
    refine acceptCommand_effect _ _ _ _ (by decide) h fun hf hs hr => ?_
    split at hr
    · cases hr
      exact .refused (by decide) hf _
    · exact .draws rfl hf (hs rfl) _ (drawInto_drawsTo _ _ _ _ hr)
  | u32In =>
    rw [exec, execU32In] at h
    refine acceptCommand_effect _ _ _ _ (by decide) h fun hf hs hr => ?_
    split at hr
    · cases hr
      exact .refused (by decide) hf _
    · exact drawRange_effect _ _ _ (by decide) rfl hf (hs rfl) hr
  | s32In =>
    rw [exec, execS32In] at h
    refine acceptCommand_effect _ _ _ _ (by decide) h fun hf hs hr => ?_
    split at hr
    · cases hr
      exact .refused (by decide) hf _
    · exact drawRange_effect _ _ _ (by decide) rfl hf (hs rfl) hr
  | oneIn =>
    rw [exec, execOneIn] at h
    refine acceptCommand_effect _ _ _ _ (by decide) h fun hf hs hr => ?_
    split at hr
    · cases hr
      exact .draws rfl hf (hs rfl) _ ⟨0, 0, rfl⟩
    · exact .draws rfl hf (hs rfl) _ (drawInto_drawsTo _ _ _ _ hr)

/-- A step accepts the oldest transaction of the host (R40). -/
theorem step_cons (s : State) (t : Transaction) (rest : List Transaction) (h : s.pending = t :: rest) :
    step s = acceptTransaction t rest s := by
  rw [step, acceptNext, h]

/-- A step whose transaction is a `CMD` write of a word that decodes runs that command (R49). -/
theorem step_command (s : State) (w : Word) (i : Instr) (rest : List Transaction) (h : s.pending = .write 0 w :: rest)
    (hd : decode w = .ok i) : step s = abandonIfReset rest (s.withPending rest) (exec i (s.withPending rest)) := by
  rw [step_cons s _ _ h, acceptTransaction, transact, portWrite, if_pos rfl, writeCmd, hd, dispatch]

/-- The ways a step can lead from one state to the next. -/
inductive StepEffect (s : State) : State → Prop where
  /-- The host issues nothing. -/
  | idle (hp : s.pending = []) : StepEffect s s
  /-- A read (R32). -/
  | reads (i : RegIndex) (rest : List Transaction) (hp : s.pending = .read i :: rest) :
      StepEffect s ((s.withPending rest).logRead (s.portRead i))
  /-- A write of a register other than `CMD` (R33). -/
  | writes (i : RegIndex) (v : Word) (rest : List Transaction) (hp : s.pending = .write i v :: rest) (hi : i ≠ 0) :
      StepEffect s ((s.withPending rest).writeReg i v)
  /-- A command (R49). -/
  | runs (w : Word) (i : Instr) (rest : List Transaction) (hp : s.pending = .write 0 w :: rest) (hd : decode w = .ok i)
      (t : State) (he : exec i (s.withPending rest) = .next t) : StepEffect s t
  /-- A command word that names no command (R50). -/
  | illegal (w : Word) (e : DecodeError) (rest : List Transaction) (hp : s.pending = .write 0 w :: rest)
      (hd : decode w = .error e) : StepEffect s (refuseWord w (s.withPending rest))
  /-- Reset (R160). -/
  | resets (rest : List Transaction) (hp : s.pending = .reset :: rest) : StepEffect s (s.withPending rest).resetEngine
  /-- A command that never ends, abandoned by the reset that follows it (R163, R166). -/
  | abandoned (w : Word) (i : Instr) (rest : List Transaction) (hp : s.pending = .write 0 w :: .reset :: rest)
      (hd : decode w = .ok i) (he : exec i (s.withPending (.reset :: rest)) = .fault .hang) :
      StepEffect s (s.withPending rest).resetEngine

/-- Everything a step can do when it answers a next state. -/
theorem step_effect (s t : State) (h : step s = .next t) : StepEffect s t := by
  rw [step, acceptNext] at h
  split at h
  · rename_i hp
    cases h
    exact .idle hp
  · rename_i tr rest hp
    rw [acceptTransaction] at h
    cases tr with
    | read i =>
      cases h
      exact .reads i rest hp
    | reset =>
      cases h
      exact .resets rest hp
    | write i v =>
      rw [transact, portWrite] at h
      split at h
      · rename_i h0
        subst h0
        rw [writeCmd] at h
        cases hd : decode v with
        | error e =>
          rw [hd] at h
          cases h
          exact .illegal v e rest hp hd
        | ok j =>
          rw [hd, dispatch] at h
          cases he : exec j (s.withPending rest) with
          | next u =>
            rw [he] at h
            cases h
            exact .runs v j rest hp hd _ he
          | refused r =>
            rw [he] at h
            cases h
          | fault f =>
            cases f
            rw [he] at h
            match rest, hp, he, h with
            | .reset :: later, hp, he, h =>
              cases h
              exact .abandoned v j later hp hd he
      · rename_i h0
        cases h
        exact .writes i v rest hp h0

end Sys2Proof.Machine
end

