-- ==== Sys2Proof/Tests/Slice0.lean ====
section
/-! SUPPORT. The model's own tests. Expected values are the vectors of spec/95_test_vectors.md (section given) or a rule's own
numbers; the witnesses show that the hypotheses of the obligations can be met together. -/

namespace Sys2Proof.Tests

open Sys2Proof.Machine

/-- The reset engine with operands. -/
def fresh (a b c : Word) : State := { State.reset with arg0 := a, arg1 := b, arg2 := c }

/-- The engine after `seed 1` (95 section 2.1), with operands. -/
def seed1 (a b : Word) : State :=
  { State.reset with s0 := 0x208c488e, s1 := 0x91e59a66, seeded := true, arg0 := a, arg1 := b }

/-- The engine that R11 forbids: seeded, holding `(0, 0)`. -/
def forbidden (a : Word) : State := { State.reset with seeded := true, arg0 := a, arg1 := 2 }

/-- An engine with a fault recorded. -/
def faulted2 (pending : List Transaction) : State := { State.reset with err := 2, finfo := 0x10, pending := pending }

/-- What a test looks at: `RES`, `S0`, `S1`, `ERR`, `FINFO`. -/
def seen (o : Result) : Option (Word × Word × Word × BitVec 4 × Word) :=
  match o with
  | .next t => some (t.res, t.s0, t.s1, t.err, t.finfo)
  | _ => none

/-! ## Well-formedness: an ill-formed word for each check -/

/-- Reserved bits not zero (95 section 2.6). -/
theorem test_wf_rsv : rsvOk 0x00000110 = false ∧ rsvOk 0x00000010 = true := by decide

/-- An unassigned opcode (95 section 2.6). -/
theorem test_wf_op : opUnassigned 0x05 = true ∧ opUnassigned 0x04 = false := by decide

theorem test_wf_legal : wordLegal 0x00000110 = false ∧ wordLegal 0x00000005 = false ∧ wordLegal 0x00000010 = true := by decide

/-! ## Decoding: words written out bit by bit, bits 31:8 then bits 7:0 (R45, R47) -/

theorem test_decode_seed : decode 0b000000000000000000000000_00000001 = .ok .seed := by decide
theorem test_decode_ldst : decode 0b000000000000000000000000_00000010 = .ok .ldst := by decide
theorem test_decode_clrErr : decode 0b000000000000000000000000_00000011 = .ok .clrErr := by decide
theorem test_decode_mix32 : decode 0b000000000000000000000000_00000100 = .ok .mix32 := by decide
theorem test_decode_advance : decode 0b000000000000000000000000_00010000 = .ok .advance := by decide
theorem test_decode_u32To : decode 0b000000000000000000000000_00010001 = .ok .u32To := by decide
theorem test_decode_u32In : decode 0b000000000000000000000000_00010010 = .ok .u32In := by decide
theorem test_decode_s32In : decode 0b000000000000000000000000_00010011 = .ok .s32In := by decide
theorem test_decode_oneIn : decode 0b000000000000000000000000_00010100 = .ok .oneIn := by decide
theorem test_decode_unitFromBits : decode 0b000000000000000000000000_00100000 = .ok .unitFromBits := by decide
theorem test_decode_eunitFromBits : decode 0b000000000000000000000000_00100001 = .ok .eunitFromBits := by decide
theorem test_decode_floatUnit : decode 0b000000000000000000000000_00100010 = .ok .floatUnit := by decide
theorem test_decode_floatEunit : decode 0b000000000000000000000000_00100011 = .ok .floatEunit := by decide
theorem test_decode_shuffle : decode 0b000000000000000000000000_00110000 = .ok .shuffle := by decide

/-- Illegal words, refused by name (95 section 2.6). -/
theorem test_decode_illegal :
    decode 0x00000000 = .error (.unassignedOpcode 0x00) ∧ decode 0x00000005 = .error (.unassignedOpcode 0x05) ∧
    decode 0x000000ff = .error (.unassignedOpcode 0xff) ∧ decode 0x00000110 = .error .reservedBits ∧
    decode 0x80000001 = .error .reservedBits ∧ decode 0x00000103 = .error .reservedBits := by decide

theorem test_decode_table_word :
    decodeTableWord 32 0x30 = some .shuffle ∧ decodeTableWord 8 0x30 = some .shuffle ∧ decodeTableWord 32 0x130 = none ∧
    decodeTableWord 32 (2 ^ 32 + 0x30) = none := by decide

/-! ## One step from the entry point -/

/-- The first step after reset runs MIX32: `F(0)` (95 section 2.1). -/
theorem test_first_step_mix32 : seen (step (State.reset.withFetchWord 32 0x04)) = some (0x0c30df27, 0, 0, 0, 0) := by decide

/-- The first step after reset runs ADVANCE, which faults (95 section 2.6). -/
theorem test_first_step_advance : seen (step (State.reset.withFetchWord 32 0x10)) = some (0, 0, 0, 2, 0x10) := by decide

/-- An illegal word (95 section 2.6). -/
theorem test_step_illegal : seen (step (State.reset.issueCommand 0x00000103)) = some (0, 0, 0, 1, 0x103) := by decide

/-! ## The port (95 section 2.6) -/

theorem test_status_views :
    State.reset.status = 0x00000000 ∧ (seed1 0 0).status = 0x00000001 ∧ (faulted2 []).status = 0x00000020 ∧
    { seed1 0 0 with err := 3 }.status = 0x00000031 := by decide

theorem test_port_reads : (faulted2 []).portRead 8 = 0x10 ∧ (seed1 5 6).portRead 3 = 6 ∧ (seed1 5 6).portRead 0 = 0 ∧
    (seed1 5 6).portRead 15 = 0 ∧ (seed1 5 6).portRead 6 = 0x208c488e := by decide

/-! ## State and core advance (95 sections 2.1 and 2.2) -/

theorem test_seed : seen (exec .seed (fresh 0 0 0)) = some (0, 0x7d30beb3, 0x0c30df27, 0, 0) := by decide
theorem test_seed_s0_zero : seen (exec .seed (fresh 0xc04c7fc9 0 0)) = some (0, 0, 0x61c88647, 0, 0) := by decide
theorem test_ldst : seen (exec .ldst (fresh 0 1 0)) = some (0, 0, 1, 0, 0) := by decide
theorem test_ldst_zero : seen (exec .ldst (fresh 0 0 0)) = some (0, 0, 0, 6, 2) := by decide
theorem test_mix32 : seen (exec .mix32 (fresh 0xdeadbeef 0 0)) = some (0x7124f687, 0, 0, 0, 0) := by decide
theorem test_mix32_zero : seen (exec .mix32 (fresh 0x61c88647 0 0)) = some (0, 0, 0, 0, 0) := by decide
theorem test_advance : seen (exec .advance (seed1 0 0)) = some (0x8bd2946d, 0x5a4e33ca, 0x3a5d162d, 0, 0) := by decide
theorem test_advance_parts :
    (Gen.mk 0xffffffff 0).raw = 0x1d53eb5c ∧ (Gen.mk 0xffffffff 0).next = ⟨0xfffffe00, 0xffffffff⟩ := by decide
theorem test_clrErr : seen (exec .clrErr (faulted2 [])) = some (0, 0, 0, 0, 0) := by decide

/-! ## Integer layer (95 section 2.3) -/

/-- Three raw words are rejected, the fourth is accepted: `seed 13`. -/
theorem test_u32To_rejects :
    seen (exec .u32To { seed1 0x80000001 0 with s0 := 0x2b414137, s1 := 0xe741b080 }) =
      some (0x7fa45e35, 0x958dd6c1, 0x23371947, 0, 0) := by decide
theorem test_u32To_zero : seen (exec .u32To (seed1 0 0)) = some (0, 0x208c488e, 0x91e59a66, 3, 0x11) := by decide
theorem test_u32In : seen (exec .u32In (seed1 0xfffffff0 0xffffffff)) =
    some (0xfffffffd, 0x5a4e33ca, 0x3a5d162d, 0, 0) := by decide
theorem test_u32In_full : seen (exec .u32In (seed1 0 0xffffffff)) = some (0, 0x208c488e, 0x91e59a66, 3, 0x12) := by decide
theorem test_s32In : seen (exec .s32In (seed1 0xfffffffb 5)) = some (0xfffffffe, 0x5a4e33ca, 0x3a5d162d, 0, 0) := by decide
theorem test_s32In_inverted : seen (exec .s32In (seed1 0 0xffffffff)) = some (0, 0x208c488e, 0x91e59a66, 4, 0x13) := by decide
theorem test_oneIn : seen (exec .oneIn (seed1 0x8bd2946d 0)) = some (1, 0x5a4e33ca, 0x3a5d162d, 0, 0) := by decide
theorem test_oneIn_never : seen (exec .oneIn (seed1 0 0)) = some (0, 0x208c488e, 0x91e59a66, 0, 0) := by decide

/-! ## Float layer (95 section 2.4) -/

theorem test_unitFromBits : seen (exec .unitFromBits (fresh 0xffffff00 0 0)) = some (0x3f800000, 0, 0, 0, 0) := by decide
theorem test_unitFromBits_mid : unitBits 0x55555555 = 0x3eaaaaab ∧ unitBits 0x00000300 = 0x34400001 := by decide
theorem test_eunitFromBits : seen (exec .eunitFromBits (fresh 0xffffff00 0 0)) = some (0x3f7fffff, 0, 0, 0, 0) := by decide
theorem test_eunitFromBits_mid : eunitBits 0x40000000 = 0x3e800000 ∧ eunitBits 0x000000ff = 0 := by decide
theorem test_floatUnit : seen (exec .floatUnit (seed1 0 0)) = some (0x3f0bd295, 0x5a4e33ca, 0x3a5d162d, 0, 0) := by decide
theorem test_floatEunit : seen (exec .floatEunit (seed1 0 0)) = some (0x3f0bd294, 0x5a4e33ca, 0x3a5d162d, 0, 0) := by decide

/-! ## Shuffle (95 section 2.5) -/

theorem test_halfBits :
    [1, 2, 3, 4, 15, 16, 63, 64, 255, 256, 65535, 65536, 1073741823, 1073741824, 4294967295].map halfBits =
      [1, 1, 1, 2, 2, 3, 3, 4, 4, 5, 8, 9, 15, 16, 16] := by decide
theorem test_feistel : (List.range 16).map (fun x => (feistel 2 7 (BitVec.ofNat 32 x)).toNat) =
    [0, 7, 2, 13, 3, 14, 9, 12, 8, 15, 10, 5, 1, 4, 11, 6] := by decide
/-- Three evaluations: 7, 12, 1. -/
theorem test_shuffle : seen (exec .shuffle (fresh 1 5 7)) = some (1, 0, 0, 0, 0) := by decide
/-- Eight evaluations over the whole 32-bit domain. -/
theorem test_shuffle_large : seen (exec .shuffle (fresh 0 0x40000000 1)) = some (0x0d109d44, 0, 0, 0, 0) := by decide

/-! ## Host layer (R128) -/

/-- A call with a violated precondition reads `FINFO` and clears the fault. -/
theorem test_hostCall_violation : hostCall .u32To [0] (seed1 0 0) = .violation 0x11 (seed1 0 0) := by decide
theorem test_hostCall_value : hostCall .shuffle [3, 5, 7] State.reset = .value 4 { fresh 3 5 7 with res := 4 } := by decide

/-! ## Witnesses: the hypotheses of each obligation that has some, met together -/

/-- From `(0, 0)` every raw word is 0 (R65). -/
theorem zero_never_accepted (th : Word) (h : ult 0 th = true) (n : Nat) : ult (Gen.next^[n] Gen.zero).raw th = true := by
  rw [Function.iterate_fixed (by decide : Gen.next Gen.zero = Gen.zero)]
  exact h

theorem forbidden_draw_hangs (b : Word) (result : Word → Word) (s : State) (hg : s.gen = Gen.zero)
    (h : ult 0 (threshold b) = true) : drawInto b result s = .fault .hang :=
  drawInto_of_none _ _ _ ((drawLoop_none_iff _ _).mpr (hg ▸ zero_never_accepted _ h))

/-- A state that R11 forbids makes the rejection loop of U32_TO with bound 3 endless. -/
theorem u32To_hangs (s : State) (hf : s.faulted = false) (hs : s.seeded = true) (ha : s.arg0 = 3) (hg : s.gen = Gen.zero) :
    exec .u32To s = .fault .hang := by
  rw [exec, execU32To, acceptCommand_of_ready _ _ _ hf fun _ => hs, ha, if_neg (by decide)]
  exact forbidden_draw_hangs _ _ _ hg (by decide)

theorem witness_hang_u32To : exec .u32To (forbidden 3) = .fault .hang := u32To_hangs _ rfl rfl rfl rfl

/-- U32_IN from 0 to 2, span 3. -/
theorem witness_hang_u32In : exec .u32In (forbidden 0) = .fault .hang := by
  rw [exec, execU32In, acceptCommand_of_ready _ _ _ rfl fun _ => rfl, if_neg (by decide), drawRange, if_neg (by decide)]
  exact forbidden_draw_hangs _ _ _ rfl (by decide)

theorem witness_hang_s32In : exec .s32In (forbidden 0) = .fault .hang := by
  rw [exec, execS32In, acceptCommand_of_ready _ _ _ rfl fun _ => rfl, if_neg (by decide), drawRange, if_neg (by decide)]
  exact forbidden_draw_hangs _ _ _ rfl (by decide)

theorem witness_hang_oneIn : exec .oneIn (forbidden 3) = .fault .hang := by
  rw [exec, execOneIn, acceptCommand_of_ready _ _ _ rfl fun _ => rfl, if_neg (by decide)]
  exact forbidden_draw_hangs _ _ _ rfl (by decide)

/-- The boundaries of the unassigned ranges and of the reserved field. -/
def illegalWords : List Word := [0x00, 0x05, 0x0F, 0x15, 0x1F, 0x24, 0x2F, 0x31, 0xFF, 0x100, 0x80000001]

theorem witness_IllegalWordsFault : illegalWords.all (fun w => !wordLegal w) = true ∧
    ∃ s : State, s.pending = [.write 0 0x100] ∧ s.err = 0 :=
  ⟨by decide, { State.reset with pending := [.write 0 0x100] }, rfl, rfl⟩

/-- A command that completes. -/
theorem witness_StepRunsIssuedCommand : ∃ s t : State, s.pending = [.write 0 3] ∧ decode 3 = .ok .clrErr ∧
    exec .clrErr { s with pending := [] } = .next t := ⟨faulted2 [.write 0 3], _, rfl, by decide, rfl⟩

/-- A command that hangs with nothing behind it, and one with a reset behind it. -/
theorem witness_StepRunsIssuedCommand_hang : ∀ rest ∈ [[], [Transaction.reset]], ∃ s : State,
    s.pending = .write 0 0x11 :: rest ∧ decode 0x11 = .ok .u32To ∧ exec .u32To { s with pending := rest } = .fault .hang := by
  intro rest _
  refine ⟨{ forbidden 3 with pending := .write 0 0x11 :: rest }, rfl, by decide, ?_⟩
  exact u32To_hangs _ rfl rfl rfl rfl

/-- A command that completes, and one that hangs with nothing pending or with a reset at the head. -/
theorem witness_IssuedWordIsNextStep : (∃ t, exec .mix32 State.reset = .next t) ∧
    (exec .u32To (forbidden 3) = .fault .hang ∧ (forbidden 3).pending.head? ≠ some .reset) ∧
    ∃ s : State, exec .u32To s = .fault .hang ∧ s.pending = [.reset, .read 1] :=
  ⟨⟨_, rfl⟩, ⟨witness_hang_u32To, by decide⟩,
   { forbidden 3 with pending := [.reset, .read 1] }, u32To_hangs _ rfl rfl rfl rfl, rfl⟩

/-- The first and the last reserved index, and a pending read. -/
theorem witness_PortReadsRegisters : (9 ≤ (9 : RegIndex).val ∧ 9 ≤ (15 : RegIndex).val) ∧
    ∃ s : State, s.pending = [.read 8, .reset] := ⟨by decide, faulted2 [.read 8, .reset], rfl⟩

theorem witness_PortWritesRegisters :
    (∃ s : State, s.pending = [.write 2 7]) ∧ (∃ s : State, s.pending = [.write 3 7]) ∧
    (∃ s : State, s.pending = [.write 4 7]) ∧ (∃ s : State, s.pending = [.write 1 7] ∧ (1 : RegIndex).val = 1) ∧
    (∃ s : State, s.pending = [.write 5 7] ∧ 5 ≤ (5 : RegIndex).val) ∧
    ∃ s : State, s.pending = [.write 15 7] ∧ 5 ≤ (15 : RegIndex).val :=
  ⟨⟨faulted2 _, rfl⟩, ⟨faulted2 _, rfl⟩, ⟨faulted2 _, rfl⟩, ⟨faulted2 _, rfl, by decide⟩, ⟨faulted2 _, rfl, by decide⟩,
   ⟨faulted2 _, rfl, by decide⟩⟩

/-- A read-only index at each end, and the reserved ones. -/
theorem witness_ReservedLocationsAreInert : (9 ≤ (9 : RegIndex).val) ∧ ((1 : RegIndex).val = 1) ∧ (5 ≤ (5 : RegIndex).val) ∧
    (5 ≤ (8 : RegIndex).val) ∧ 5 ≤ (15 : RegIndex).val := by decide

theorem witness_IdleStepChangesNothing : (seed1 0 0).pending = [] := rfl

theorem witness_ResetRegisterValues : (faulted2 [.reset]).pending = [.reset] := rfl

theorem witness_SeededChangesOnlyBySeedLdstReset :
    (∃ s t : State, s.GenOk ∧ step s = .next t ∧ s.seeded ≠ t.seeded ∧ t.seeded = true) ∧
    ∃ s t : State, s.GenOk ∧ step s = .next t ∧ s.seeded ≠ t.seeded ∧ t.seeded = false :=
  ⟨⟨State.reset.issueCommand 1, _, fun h => absurd h (by decide), rfl, by decide, by decide⟩,
   ⟨{ seed1 0 0 with pending := [.reset] }, _, fun _ => by decide, rfl, by decide, by decide⟩⟩

/-- A cause for each code 2 to 6, and none. -/
theorem witness_FaultsAreThoseOfTheTable :
    faultCause .advance State.reset = some 2 ∧ faultCause .u32To (seed1 0 0) = some 3 ∧
    faultCause .u32In (seed1 0 0xFFFFFFFF) = some 3 ∧ faultCause .s32In (seed1 0x80000000 0x7FFFFFFF) = some 3 ∧
    faultCause .u32In (seed1 1 0) = some 4 ∧ faultCause .s32In (seed1 0 0xFFFFFFFF) = some 4 ∧
    faultCause .shuffle (fresh 5 5 0) = some 5 ∧ faultCause .shuffle (fresh 0 0 0) = some 5 ∧
    faultCause .ldst (fresh 0 0 0) = some 6 ∧ faultCause .u32In (seed1 0 0xFFFFFFFE) = none ∧
    faultCause .shuffle (fresh 4 5 0) = none ∧ (seed1 0 0).err = 0 ∧ (fresh 5 5 0).err = 0 := by decide

theorem witness_FaultsArePrecise : ∃ t, (fresh 0 0 0).err = 0 ∧ exec .ldst (fresh 0 0 0) = .next t ∧ t.err ≠ 0 :=
  ⟨_, rfl, rfl, by decide⟩

theorem witness_UnseededComesFirst :
    ((fresh 0 0 0).err = 0 ∧ (fresh 0 0 0).seeded = false ∧ (fresh 0 0 0).arg0 = 0) ∧
    ((fresh 1 0 0).seeded = false ∧ (fresh 1 0 0).arg1.toNat < (fresh 1 0 0).arg0.toNat) ∧
    (seed1 1 0).err = 0 ∧ (seed1 1 0).seeded = true ∧ (seed1 1 0).arg1.toNat < (seed1 1 0).arg0.toNat := by decide

/-- The clauses for the full ranges and the signed ones, unseeded; seeded they are in `witness_bounded_draw_refused`. -/
theorem witness_UnseededComesFirst_ranges :
    (fresh 0 0xFFFFFFFF 0).seeded = false ∧ ((fresh 0 0xFFFFFFFF 0).arg0 = 0 ∧ (fresh 0 0xFFFFFFFF 0).arg1 = 0xFFFFFFFF) ∧
    (fresh 0 0xFFFFFFFF 0).arg1.toInt < (fresh 0 0xFFFFFFFF 0).arg0.toInt ∧
    (fresh 0x80000000 0x7FFFFFFF 0).arg0 = 0x80000000 ∧ (fresh 0x80000000 0x7FFFFFFF 0).arg1 = 0x7FFFFFFF := by decide

theorem witness_FaultedEngineDiscards : (faulted2 []).err ≠ 0 ∧ (0x00000103 : Word) ≠ 0x00000003 ∧
    (faulted2 [.write 0 0x103]).pending = [.write 0 0x103] ∧ (faulted2 [.read 1]).pending = [.read 1] ∧
    (faulted2 [.write 2 5]).pending = [.write 2 5] ∧ (faulted2 [.write 3 5]).pending = [.write 3 5] ∧
    (faulted2 [.write 4 5]).pending = [.write 4 5] := by decide

theorem witness_ClrErrClearsFault : ((seed1 0 0).FaultRegsOk ∧ (seed1 0 0).err = 0) ∧
    ((faulted2 []).err ≠ 0 ∧ Instr.seed ≠ .clrErr) ∧ (faulted2 [.write 0 0x103]).pending = [.write 0 0x103] :=
  ⟨⟨⟨by decide, fun _ => rfl⟩, rfl⟩, by decide, rfl⟩

theorem witness_OnlyClrErrAndResetLeaveFault :
    (∃ t, step (faulted2 [.write 0 3]) = .next t ∧ (faulted2 [.write 0 3]).err ≠ 0 ∧ t.err ≠ (faulted2 [.write 0 3]).err) ∧
    ∃ t, step (faulted2 [.reset]) = .next t ∧ (faulted2 [.reset]).err ≠ 0 ∧ t.err ≠ (faulted2 [.reset]).err :=
  ⟨⟨_, rfl, by decide, by decide⟩, ⟨_, rfl, by decide, by decide⟩⟩

/-- The engine is not faulted: MIX32, SEED, LDST, ADVANCE, the float commands; seeded and unseeded; each boundary of LDST. -/
theorem witness_not_faulted : (fresh 0 0 0).err = 0 ∧ (seed1 0 0).err = 0 ∧ (seed1 0 0).seeded = true ∧
    (fresh 0 0 0).seeded = false ∧ ¬((fresh 0 1 0).arg0 = 0 ∧ (fresh 0 1 0).arg1 = 0) ∧
    ¬((fresh 1 0 0).arg0 = 0 ∧ (fresh 1 0 0).arg1 = 0) ∧ (fresh 0 0 0).arg0 = 0 ∧ (fresh 0 0 0).arg1 = 0 := by decide

theorem witness_EveryRawWordIsProduced : (Gen.mk 0 1) ≠ Gen.zero ∧ (Gen.mk 1 0) ≠ Gen.zero := by decide

theorem witness_ThresholdFacts : (1 : Word) ≠ 0 ∧ (0xFFFFFFFF : Word) ≠ 0 := by decide

/-- The first raw word of seed 1 is accepted for bound 6 (95 section 2.3); the least and the greatest result. -/
theorem witness_DrawIsUnbiased : (6 : Word) ≠ 0 ∧ AcceptedAt (threshold 6) (seed1 6 0).gen 0 ∧
    (0 : Word).toNat < (6 : Word).toNat ∧ (5 : Word).toNat < (6 : Word).toNat :=
  ⟨by decide, ⟨fun j h => absurd h (Nat.not_lt_zero j), by decide⟩, by decide, by decide⟩

/-- The clauses of the four bounded draws for an unseeded engine. -/
theorem witness_bounded_draw_unseeded : (fresh 0 0 0).err = 0 ∧ (fresh 0 0 0).seeded = false := by decide

/-- The clauses for refused operands: bound 0, inverted ranges next to the diagonal, the full ranges. -/
theorem witness_bounded_draw_refused : (seed1 0 0).arg0 = 0 ∧ (seed1 1 0).arg1.toNat < (seed1 1 0).arg0.toNat ∧
    ((seed1 0 0xFFFFFFFF).arg0 = 0 ∧ (seed1 0 0xFFFFFFFF).arg1 = 0xFFFFFFFF) ∧
    (seed1 0 0xFFFFFFFF).arg1.toInt < (seed1 0 0xFFFFFFFF).arg0.toInt ∧
    ((seed1 0x80000000 0x7FFFFFFF).arg0 = 0x80000000 ∧ (seed1 0x80000000 0x7FFFFFFF).arg1 = 0x7FFFFFFF) ∧
    (seed1 0 0).err = 0 ∧ (seed1 0 0).seeded = true := by decide

/-- A bound that rejects, and a power of two. -/
theorem witness_U32ToCompletes : (seed1 6 0).err = 0 ∧ (seed1 6 0).seeded = true ∧ (seed1 6 0).gen ≠ Gen.zero ∧
    (seed1 6 0).arg0 ≠ 0 ∧ (seed1 0x80000000 0).arg0.toNat = 2 ^ 31 := by decide

/-- `lo = hi`, and one value short of the full range. -/
theorem witness_U32InCompletes : (seed1 7 7).err = 0 ∧ (seed1 7 7).seeded = true ∧ (seed1 7 7).gen ≠ Gen.zero ∧
    (seed1 7 7).arg0.toNat ≤ (seed1 7 7).arg1.toNat ∧ ¬((seed1 7 7).arg0 = 0 ∧ (seed1 7 7).arg1 = 0xFFFFFFFF) ∧
    ¬((seed1 0 0xFFFFFFFE).arg0 = 0 ∧ (seed1 0 0xFFFFFFFE).arg1 = 0xFFFFFFFF) := by decide

theorem witness_S32InCompletes : (seed1 0x80000000 0x7FFFFFFE).err = 0 ∧ (seed1 0x80000000 0x7FFFFFFE).seeded = true ∧
    (seed1 0x80000000 0x7FFFFFFE).gen ≠ Gen.zero ∧
    (seed1 0x80000000 0x7FFFFFFE).arg0.toInt ≤ (seed1 0x80000000 0x7FFFFFFE).arg1.toInt ∧
    ¬((seed1 0x80000000 0x7FFFFFFE).arg0 = 0x80000000 ∧ (seed1 0x80000000 0x7FFFFFFE).arg1 = 0x7FFFFFFF) := by decide

theorem witness_OneInCompletes : (seed1 0 0).err = 0 ∧ (seed1 0 0).seeded = true ∧ (seed1 0 0).gen ≠ Gen.zero ∧
    (seed1 0 0).arg0 = 0 ∧ (seed1 1 0).arg0 ≠ 0 := by decide

/-- 0.5 is finite and differs from the result for 0; the result for the low words is +0.0. -/
theorem witness_UnitIsCorrectlyRounded : f32Finite 0x3F000000 ∧ unitBits 0xFF = 0 ∧ f32Value 0x3F000000 ≠ f32Value (unitBits 0xFF) := by
  refine ⟨by unfold f32Finite; decide, by decide, ?_⟩
  rw [show unitBits 0xFF = 0 by decide]
  have h : (0x3F000000 : Word).toNat = 0x3F000000 := by decide
  have z : (0 : Word).toNat = 0 := by decide
  unfold f32Value
  rw [h, z]
  norm_num

theorem witness_UnitFromBitsCompletes : unitBits 0x100 ≠ 0 ∧ (0xFF : Word).toNat ≤ 0xFF ∧ 0xFFFFFF00 ≤ (0xFFFFFF00 : Word).toNat ∧
    ¬0xFFFFFF00 ≤ (0xFFFFFEFF : Word).toNat := by decide

theorem witness_FloatResultsIncrease : (0x1FF : Word).toNat / 2 ^ 8 = (0x100 : Word).toNat / 2 ^ 8 ∧
    (0xFF : Word).toNat / 2 ^ 8 < (0x100 : Word).toNat / 2 ^ 8 := by decide

theorem witness_HalfBitsIsLeast : (15 : Word).toNat < 4 ^ 2 ∧ (0xFFFFFFFF : Word).toNat < 4 ^ 16 := by decide

theorem witness_FeistelIsBijective : (1 ≤ 1 ∧ 1 ≤ 16 ∧ (3 : Word).toNat < 4 ^ 1) ∧ 1 ≤ 16 ∧ 16 ≤ 16 ∧
    (0xFFFFFFFF : Word).toNat < 4 ^ 16 := by decide

theorem witness_FeistelFormula : (1 ≤ 1 ∧ 1 ≤ 16 ∧ (3 : Word).toNat < 4 ^ 1) ∧ 1 ≤ 16 ∧ 16 ≤ 16 ∧
    (0xFFFFFFFF : Word).toNat < 4 ^ 16 := by decide

/-- A negative and a positive number: -1.0 and 1.0. -/
theorem witness_FloatOrderIsOrderOfNumbers : f32Finite 0xBF800000 ∧ f32Finite 0x3F800000 :=
  ⟨by unfold f32Finite; decide, by unfold f32Finite; decide⟩

/-- A sphere sample from seed 1, and the two zeros. -/
theorem witness_HemisphereFlipsNegative : (∃ p t, pointOnUnitSphere (seed1 0 0) = some (p, t)) ∧
    ((0 : Word) = 0 ∨ (0 : Word) = 0x80000000) ∧ ((0x80000000 : Word) = 0 ∨ (0x80000000 : Word) = 0x80000000) :=
  ⟨⟨_, _, rfl⟩, by decide, by decide⟩

theorem witness_ShuffleCompletes : (fresh 4 5 7).err = 0 ∧ (fresh 4 5 7).arg0.toNat < (fresh 4 5 7).arg1.toNat ∧
    (fresh 0 1 7).arg0.toNat < (fresh 0 1 7).arg1.toNat := by decide

theorem witness_ShuffleIsPermutation : (fresh 0 5 7).err = 0 ∧ (4 : Word).toNat < (fresh 0 5 7).arg1.toNat := by decide

/-- A next state that changes `RES` and one that faults, for the frame of the pure commands. -/
theorem witness_FrameOfPureCommands : (∃ t, exec .mix32 (fresh 0 0 0) = .next t ∧ t.err = (fresh 0 0 0).err) ∧
    ∃ t, exec .shuffle (fresh 0 0 0) = .next t ∧ t.err ≠ (fresh 0 0 0).err :=
  ⟨⟨_, rfl, by decide⟩, ⟨_, rfl, by decide⟩⟩

theorem witness_FrameOfStateConsumingCommands : (∃ t, exec .advance (seed1 0 0) = .next t ∧ t.err = (seed1 0 0).err) ∧
    ∃ t, exec .u32To (seed1 0 0) = .next t ∧ t.err ≠ (seed1 0 0).err :=
  ⟨⟨_, rfl, by decide⟩, ⟨_, rfl, by decide⟩⟩

theorem witness_FrameOfSeedAndLdst : (∃ t, exec .seed (fresh 0 0 0) = .next t ∧ t.err = (fresh 0 0 0).err) ∧
    ∃ t, exec .ldst (fresh 0 0 0) = .next t ∧ t.err ≠ (fresh 0 0 0).err :=
  ⟨⟨_, rfl, by decide⟩, ⟨_, rfl, by decide⟩⟩

theorem witness_FrameOfClrErr : ∃ t, exec .clrErr (faulted2 []) = .next t := ⟨_, rfl⟩

theorem witness_CommandsIgnoreUnnamedOperands :
    ((3 : RegIndex) ∉ argsRead .mix32 ∧ ∃ t, exec .mix32 (fresh 0 0 0) = .next t) ∧
    (3 : RegIndex) ∉ argsRead .u32To ∧ exec .u32To (forbidden 3) = .fault .hang :=
  ⟨⟨by decide, _, rfl⟩, by decide, witness_hang_u32To⟩

/-- A step that changes the generator state in a state that meets R11's invariant. -/
theorem witness_GenChangesOnlyByGeneratorCommands : ∃ t, ((seed1 0 0).issueCommand 0x10).GenOk ∧
    step ((seed1 0 0).issueCommand 0x10) = .next t ∧ t.gen ≠ ((seed1 0 0).issueCommand 0x10).gen :=
  ⟨_, fun _ => by decide, rfl, by decide⟩

theorem witness_StepKeepsInvariants : ∃ t, ((seed1 0 0).issueCommand 0x10).Inv ∧ step ((seed1 0 0).issueCommand 0x10) = .next t :=
  ⟨_, ⟨fun _ => by decide, fun h => absurd h (by decide), by decide, fun _ => rfl⟩, rfl⟩

theorem witness_EveryStepCompletes : ((seed1 0 0).issueCommand 0x11).Inv :=
  ⟨fun _ => by decide, fun h => absurd h (by decide), by decide, fun _ => rfl⟩

theorem witness_SavedStreamIsRestored : (seed1 0 0).gen ≠ Gen.zero ∧ (fresh 0 0 0).err = 0 := by decide

/-! ## The order of binary32 numbers (00_scope.md section 6.1) -/

/-- -1.0 <= -0.0 <= +0.0 <= -0.0 <= 1.0, not the other way round, and nothing is ordered with a pattern that is no number. -/
theorem test_f32Le : f32Le 0xBF800000 0x80000000 = true ∧ f32Le 0x80000000 0 = true ∧ f32Le 0 0x80000000 = true ∧
    f32Le 0 0x3F800000 = true ∧ f32Le 0x3F800000 0xBF800000 = false ∧ f32Le 0xBF800000 0xC0000000 = false ∧
    f32Le 0x7FC00000 0 = false ∧ f32Le 0 0x7FC00000 = false ∧ f32Le 0xFF800000 0x7F800000 = true := by decide

theorem test_f32Negative : f32Negative 0xBF800000 = true ∧ f32Negative 0x80000001 = true ∧ f32Negative 0x80000000 = false ∧
    f32Negative 0 = false ∧ f32Negative 0x3F800000 = false := by decide

/-- `lo + (hi - lo) * u`, with `u` the FLOAT_UNIT of seed 1 (95 section 2.4). -/
theorem test_floatIn : (floatIn 0 fOne (by decide) (seed1 0 0)).map Prod.fst =
    some (Config.fadd 0 (Config.fmul (Config.fsub fOne 0) 0x3f0bd295)) := rfl

end Sys2Proof.Tests
end

section
/-! Proofs of the family `00_scope.md`: the command the host presents is the next step, and a step with nothing issued is idle. -/

namespace Sys2Proof.Machine

/-! ## The decoder on the words of the commands (R47) -/

/-- The decoder inverts the encoder: one row of R47 per command. -/
@[simp] theorem decode_encode (i : Instr) : decode (encode i) = .ok i := by
  cases i with
  | seed => exact decode_seed
  | ldst => exact decode_ldst
  | clrErr => exact decode_clrErr
  | mix32 => exact decode_mix32
  | advance => exact decode_advance
  | u32To => exact decode_u32To
  | u32In => exact decode_u32In
  | s32In => exact decode_s32In
  | oneIn => exact decode_oneIn
  | unitFromBits => exact decode_unitFromBits
  | eunitFromBits => exact decode_eunitFromBits
  | floatUnit => exact decode_floatUnit
  | floatEunit => exact decode_floatEunit
  | shuffle => exact decode_shuffle

/-! ## Presenting a command word (R49; log 1) -/

@[simp] theorem tableWord_toNat (w : Word) : tableWord 32 w.toNat = w := by
  rw [tableWord, Nat.mod_eq_of_lt w.isLt, BitVec.ofNat_toNat, BitVec.setWidth_eq]

@[simp] theorem State.withFetchWord_toNat (s : State) (w : Word) : s.withFetchWord 32 w.toNat = s.issueCommand w := by
  rw [State.withFetchWord, tableWord_toNat]

/-- Accepting the command word just issued leaves the original state. -/
@[simp] theorem State.issueCommand_withPending (s : State) (w : Word) :
    (s.issueCommand w).withPending s.pending = s := rfl

/-- The step after the word of a command is issued runs that command on the original state (R49). -/
theorem step_issueCommand_encode (s : State) (i : Instr) :
    step (s.issueCommand (encode i)) = abandonIfReset s.pending s (exec i s) := by
  rw [step_command _ (encode i) i s.pending (s.issueCommand_pending _) (decode_encode i), s.issueCommand_withPending]

/-! ## What becomes of a command that never ends (R163, R166; log 5) -/

@[simp] theorem abandonIfReset_next (rest : List Transaction) (s t : State) :
    abandonIfReset rest s (.next t) = .next t := rfl

/-- Without a reset at the head of the pending list the hang stands (R166). -/
theorem abandonIfReset_hang (rest : List Transaction) (s : State) (h : rest.head? ≠ some .reset) :
    abandonIfReset rest s (.fault .hang) = .fault .hang := by
  rw [abandonIfReset]
  rintro later rfl
  exact h rfl

/-- A reset at the head of the pending list abandons the hung command (R163). -/
@[simp] theorem abandonIfReset_hang_reset (later : List Transaction) (s : State) :
    abandonIfReset (.reset :: later) s (.fault .hang) =
      .next { State.reset with pending := later, readLog := s.readLog } := rfl

/-! ## A step in which the host issues nothing (R6; log 3) -/

theorem step_nil (s : State) (h : s.pending = []) : step s = .next s := by
  rw [step, acceptNext, h]

/-! ## The obligations -/

/-- Settles O5: the issued word decodes to its command, whose outcome on the original state the step passes on or, for a hang
with a reset behind it, abandons. -/
theorem issuedWordIsNextStep : Obligations.IssuedWordIsNextStep := by
  intro s i
  rw [State.withFetchWord_toNat, step_issueCommand_encode]
  refine ⟨fun t he => ?_, fun he hp => ?_, fun later he hp => ?_⟩
  · rw [he, abandonIfReset_next]
  · rw [he, abandonIfReset_hang _ _ hp]
  · rw [he, hp, abandonIfReset_hang_reset]

/-- Settles O9: with an empty pending list the port accepts nothing. -/
theorem idleStepChangesNothing : Obligations.IdleStepChangesNothing := step_nil

end Sys2Proof.Machine
end

section
/-! Proofs of the family `10_state.md`. First what every family can use: which word names which command, when a command and a
step complete, and what the effect of a command leaves unchanged. From these follow the invariants of R11, R13, R16 and R143,
the frames, the non-interference of the operand registers, and the way back to a saved stream (R24). -/

namespace Sys2Proof.Machine

/-! ## The word of a decoded command (R45 to R47) -/

/-- A command word is its two fields (R45). -/
theorem eq_of_fields {v w : Word} (hr : rsvField v = rsvField w) (ho : opField v = opField w) : v = w := by
  have hr := congrArg BitVec.toNat hr
  have ho := congrArg BitVec.toNat ho
  simp only [rsvField, opField, BitVec.extractLsb'_toNat, Nat.shiftRight_eq_div_pow] at hr ho
  exact BitVec.eq_of_toNat_eq (by omega)

/-- The opcode map gives each command the opcode of its own word only. -/
theorem opField_of_commandOf {op : OpCode} {i : Instr} (h : commandOf op = some i) : op = opField (encode i) := by
  unfold commandOf at h
  split at h <;> cases h <;> exact BitVec.eq_of_toNat_eq ‹_›

/-- A word decodes to a command exactly when it is the word of that command (R47). -/
theorem decode_eq_ok_iff (w : Word) (i : Instr) : decode w = .ok i ↔ w = encode i := by
  refine ⟨fun h => ?_, fun h => h ▸ decode_encode i⟩
  have hi : rsvField (encode i) = 0 := by cases i <;> decide
  rw [decode] at h
  split at h
  · rename_i hr
    split at h
    · rename_i hc
      cases h
      exact eq_of_fields (hr.trans hi.symm) (opField_of_commandOf hc)
    · cases h
  · cases h

theorem encode_of_decode {w : Word} {i : Instr} (h : decode w = .ok i) : encode i = w :=
  ((decode_eq_ok_iff w i).mp h).symm

/-! ## When a command completes (R82, R166, R168) -/

/-- The commands with a rejection loop: those that take a bounded draw (R77 to R80). -/
def rejectionLoops : List Instr := [.u32To, .u32In, .s32In, .oneIn]

/-- What passing the gate of R49 leaves to show: that the command's own rule completes. -/
theorem acceptCommand_completes (i : Instr) (run : State → Result) (s : State)
    (hrun : s.faulted = false → (needsSeeded i = true → s.seeded = true) → ∃ t, run s = .next t) :
    ∃ t, acceptCommand i run s = .next t := by
  rcases acceptCommand_cases i run s with ⟨-, e⟩ | ⟨-, -, -, e⟩ | ⟨hf, hs, e⟩
  · exact ⟨_, e⟩
  · exact ⟨_, e⟩
  · exact e ▸ hrun hf hs

/-- A draw answers a next state unless it starts from `(0, 0)`. -/
theorem drawInto_next (bound : Word) (result : Word → Word) (s : State) (hg : s.gen ≠ Gen.zero) :
    ∃ t, drawInto bound result s = .next t := by
  obtain ⟨n, -, e⟩ := drawInto_completes bound result s hg
  exact ⟨_, e⟩

theorem drawRange_next (i : Instr) (s : State) (hg : s.gen ≠ Gen.zero) : ∃ t, drawRange i s = .next t := by
  unfold drawRange
  split
  · exact ⟨_, rfl⟩
  · exact drawInto_next _ _ s hg

/-- A command completes unless it has a rejection loop, gets past the gate, and starts from `(0, 0)` (R82). -/
theorem exec_completes (i : Instr) (s : State)
    (hg : i ∈ rejectionLoops → s.faulted = false → s.seeded = true → s.gen ≠ Gen.zero) : ∃ t, exec i s = .next t := by
  cases i with
  | seed =>
    rw [exec, execSeed]
    exact acceptCommand_completes _ _ s fun _ _ => ⟨_, rfl⟩
  | clrErr => exact ⟨_, rfl⟩
  | mix32 =>
    rw [exec, execMix32]
    exact acceptCommand_completes _ _ s fun _ _ => ⟨_, rfl⟩
  | advance =>
    rw [exec, execAdvance]
    exact acceptCommand_completes _ _ s fun _ _ => ⟨_, rfl⟩
  | unitFromBits =>
    rw [exec, execUnitFromBits]
    exact acceptCommand_completes _ _ s fun _ _ => ⟨_, rfl⟩
  | eunitFromBits =>
    rw [exec, execEunitFromBits]
    exact acceptCommand_completes _ _ s fun _ _ => ⟨_, rfl⟩
  | floatUnit =>
    rw [exec, execFloatUnit]
    exact acceptCommand_completes _ _ s fun _ _ => ⟨_, rfl⟩
  | floatEunit =>
    rw [exec, execFloatEunit]
    exact acceptCommand_completes _ _ s fun _ _ => ⟨_, rfl⟩
  | ldst =>
    rw [exec, execLdst]
    refine acceptCommand_completes _ _ s fun _ _ => ?_
    split <;> exact ⟨_, rfl⟩
  | shuffle =>
    rw [exec, execShuffle]
    refine acceptCommand_completes _ _ s fun _ _ => ?_
    split
    · rename_i hu
      obtain ⟨n, -, e⟩ := walkInto_completes s hu
      exact ⟨_, e⟩
    · exact ⟨_, rfl⟩
  | u32To =>
    rw [exec, execU32To]
    refine acceptCommand_completes _ _ s fun hf hs => ?_
    split
    · exact ⟨_, rfl⟩
    · exact drawInto_next _ _ s (hg (by decide) hf (hs rfl))
  | u32In =>
    rw [exec, execU32In]
    refine acceptCommand_completes _ _ s fun hf hs => ?_
    split
    · exact ⟨_, rfl⟩
    · exact drawRange_next _ s (hg (by decide) hf (hs rfl))
  | s32In =>
    rw [exec, execS32In]
    refine acceptCommand_completes _ _ s fun hf hs => ?_
    split
    · exact ⟨_, rfl⟩
    · exact drawRange_next _ s (hg (by decide) hf (hs rfl))
  | oneIn =>
    rw [exec, execOneIn]
    refine acceptCommand_completes _ _ s fun hf hs => ?_
    split
    · exact ⟨_, rfl⟩
    · exact drawInto_next _ _ s (hg (by decide) hf (hs rfl))

/-- Where the invariant of R11 holds, no command hangs. -/
theorem exec_ne_fault_of_genOk (i : Instr) (s : State) (f : Fault) (h : s.GenOk) : exec i s ≠ .fault f := by
  obtain ⟨t, e⟩ := exec_completes i s fun _ _ hs => h hs
  rw [e]
  nofun

/-! ## The steps that are no command (R32, R33, R50, R160) -/

theorem step_read (s : State) (i : RegIndex) (rest : List Transaction) (h : s.pending = .read i :: rest) :
    step s = .next ((s.withPending rest).logRead (s.portRead i)) := by
  rw [step_cons s _ _ h]
  rfl

theorem step_reset (s : State) (rest : List Transaction) (h : s.pending = .reset :: rest) :
    step s = .next (s.withPending rest).resetEngine := by
  rw [step_cons s _ _ h]
  rfl

theorem step_write (s : State) (i : RegIndex) (v : Word) (rest : List Transaction) (h : s.pending = .write i v :: rest)
    (hi : i ≠ 0) : step s = .next ((s.withPending rest).writeReg i v) := by
  rw [step_cons s _ _ h, acceptTransaction, transact, portWrite, if_neg hi, abandonIfReset_next]

theorem step_illegal (s : State) (w : Word) (e : DecodeError) (rest : List Transaction)
    (h : s.pending = .write 0 w :: rest) (hd : decode w = .error e) :
    step s = .next (refuseWord w (s.withPending rest)) := by
  rw [step_cons s _ _ h, acceptTransaction, transact, portWrite, if_pos rfl, writeCmd, hd, dispatch, abandonIfReset_next]

/-- Where the invariant of R11 holds, every step completes, whatever the host does (R168). -/
theorem step_completes (s : State) (h : s.GenOk) : ∃ t, step s = .next t := by
  match hp : s.pending with
  | [] => exact ⟨_, step_nil s hp⟩
  | .read i :: rest => exact ⟨_, step_read s i rest hp⟩
  | .reset :: rest => exact ⟨_, step_reset s rest hp⟩
  | .write i v :: rest =>
    by_cases hi : i = 0
    · subst hi
      cases hd : decode v with
      | error e => exact ⟨_, step_illegal s v e rest hp hd⟩
      | ok j =>
        obtain ⟨t, e⟩ := exec_completes j (s.withPending rest) fun _ _ hs => h hs
        exact ⟨t, by rw [step_command s v j rest hp hd, e, abandonIfReset_next]⟩
    · exact ⟨_, step_write s i v rest hp hi⟩

/-! ## What an illegal word leaves unchanged (R50) -/

@[simp] theorem refuseWord_gen (w : Word) (s : State) : (refuseWord w s).gen = s.gen := by
  unfold refuseWord
  split <;> rfl

@[simp] theorem refuseWord_seeded (w : Word) (s : State) : (refuseWord w s).seeded = s.seeded := by
  unfold refuseWord
  split <;> rfl

/-! ## What the effect of a command leaves unchanged (R14 to R17) -/

/-- The commands that need `SEEDED` are the state-consuming ones (R13). -/
theorem needsSeeded_iff (i : Instr) : needsSeeded i = true ↔ i ∈ stateConsuming := by
  cases i <;> decide

namespace CommandEffect

variable {i : Instr} {s t : State}

/-- No command writes an operand register or the host's lists (R14; logs 1 and 2). -/
theorem keeps_operands (h : CommandEffect i s t) :
    t.arg0 = s.arg0 ∧ t.arg1 = s.arg1 ∧ t.arg2 = s.arg2 ∧ t.pending = s.pending ∧ t.readLog = s.readLog := by
  cases h with
  | draws _ _ _ _ ht =>
    obtain ⟨n, v, rfl⟩ := ht
    simp
  | _ => simp

/-- A command other than CLRERR that changes `ERR` is refused, and so changes nothing but the fault registers (R143, R148). -/
theorem eq_raiseFault (h : CommandEffect i s t) (hi : i ≠ .clrErr) (he : t.err ≠ s.err) :
    ∃ c, t = s.raiseFault c (encode i) := by
  cases h with
  | cleared hc => exact absurd hc hi
  | refused _ _ c => exact ⟨c, rfl⟩
  | draws _ _ _ _ ht =>
    obtain ⟨n, v, rfl⟩ := ht
    exact absurd rfl he
  | _ => exact absurd rfl he

/-- A command other than CLRERR that leaves `ERR` as it was leaves `FINFO` too (R143). -/
theorem finfo_eq (h : CommandEffect i s t) (hi : i ≠ .clrErr) (he : t.err = s.err) : t.finfo = s.finfo := by
  cases h with
  | cleared hc => exact absurd hc hi
  | refused _ hf c =>
    have hs : s.err = 0 := s.faulted_eq_false_iff.mp hf
    exact absurd (he.trans hs) c.code_ne_zero
  | draws _ _ _ _ ht =>
    obtain ⟨n, v, rfl⟩ := ht
    rfl
  | _ => rfl

/-- Only SEED, LDST and the state-consuming commands of a seeded engine change the generator state (R10). -/
theorem gen_cases (h : CommandEffect i s t) :
    t.gen = s.gen ∨ (i ∈ stateConsuming ∧ s.seeded = true) ∨ i = .seed ∨ i = .ldst := by
  cases h with
  | seeds hi => exact .inr (.inr (.inl hi))
  | loads hi => exact .inr (.inr (.inr hi))
  | draws hi _ hs => exact .inr (.inl ⟨(needsSeeded_iff i).mp hi, hs⟩)
  | _ => exact .inl rfl

/-- Only SEED and LDST change `SEEDED`, and they set it (R13). -/
theorem seeded_cases (h : CommandEffect i s t) : t.seeded = s.seeded ∨ t.seeded = true ∧ (i = .seed ∨ i = .ldst) := by
  cases h with
  | seeds hi => exact .inr ⟨rfl, .inl hi⟩
  | loads hi => exact .inr ⟨rfl, .inr hi⟩
  | draws _ _ _ _ ht =>
    obtain ⟨n, v, rfl⟩ := ht
    exact .inl rfl
  | _ => exact .inl rfl

/-- SEED and LDST give no result (R15). -/
theorem res_eq_of_seed_or_ldst (h : CommandEffect i s t) (hi : i = .seed ∨ i = .ldst) : t.res = s.res := by
  cases h with
  | computes hc => rcases hi with rfl | rfl <;> simp at hc
  | draws hn => rcases hi with rfl | rfl <;> simp at hn
  | _ => rfl

end CommandEffect

/-- A command that needs no generator state and whose rule leaves the fault registers raises no fault. -/
theorem acceptCommand_keeps_faultRegs {i : Instr} {update : State → State} {s t : State} (hn : needsSeeded i = false)
    (he : (update s).err = s.err) (hf : (update s).finfo = s.finfo)
    (h : acceptCommand i (fun s => .next (update s)) s = .next t) : t.err = s.err ∧ t.finfo = s.finfo := by
  rcases acceptCommand_cases i (fun s => .next (update s)) s with ⟨-, e⟩ | ⟨-, hs, -⟩ | ⟨-, -, e⟩
  · cases e.symm.trans h
    exact ⟨rfl, rfl⟩
  · exact absurd (hn.symm.trans hs) (by decide)
  · cases e.symm.trans h
    exact ⟨he, hf⟩

/-- SEED, MIX32 and the two float conversions have no fault of their own (R141). -/
theorem exec_keeps_faultRegs {i : Instr} {s t : State} (hi : i ∈ [Instr.seed, .mix32, .unitFromBits, .eunitFromBits])
    (h : exec i s = .next t) : t.err = s.err ∧ t.finfo = s.finfo := by
  simp only [List.mem_cons, List.not_mem_nil, or_false] at hi
  rcases hi with rfl | rfl | rfl | rfl
  · rw [exec, execSeed] at h
    exact acceptCommand_keeps_faultRegs rfl rfl rfl h
  · rw [exec, execMix32] at h
    exact acceptCommand_keeps_faultRegs rfl rfl rfl h
  · rw [exec, execUnitFromBits] at h
    exact acceptCommand_keeps_faultRegs rfl rfl rfl h
  · rw [exec, execEunitFromBits] at h
    exact acceptCommand_keeps_faultRegs rfl rfl rfl h

/-! ## The invariants (R11, R13, R16, R143) -/

/-- The invariant speaks of the generator state, `SEEDED` and the fault registers only. -/
theorem State.Inv.congr {s t : State} (h : s.Inv) (hg : t.gen = s.gen) (hs : t.seeded = s.seeded) (he : t.err = s.err)
    (hf : t.finfo = s.finfo) : t.Inv := by
  obtain ⟨hok, hzero, hregs⟩ := h
  refine ⟨?_, ?_, ?_⟩
  · rwa [State.GenOk, hg, hs]
  · rwa [State.UnseededIsZero, hg, hs]
  · rwa [State.FaultRegsOk, he, hf]

/-- A seeded engine with a generator state that is not `(0, 0)`, its fault registers in order. -/
theorem State.Inv.of_seeded {s : State} (hs : s.seeded = true) (hg : s.gen ≠ Gen.zero) (hr : s.FaultRegsOk) : s.Inv :=
  ⟨fun _ => hg, fun h => absurd (hs.symm.trans h) (by decide), hr⟩

theorem State.Inv.raiseFault {s : State} (h : s.Inv) (c : FaultCode) (w : Word) : (s.raiseFault c w).Inv :=
  ⟨h.genOk, h.unseededIsZero, c.code_le_six, fun e => absurd e c.code_ne_zero⟩

theorem State.Inv.clearFault {s : State} (h : s.Inv) : s.clearFault.Inv :=
  ⟨h.genOk, h.unseededIsZero, Nat.zero_le 6, fun _ => rfl⟩

theorem State.Inv.withPending {s : State} (h : s.Inv) (rest : List Transaction) : (s.withPending rest).Inv :=
  h.congr rfl rfl rfl rfl

theorem refuseWord_inv {s : State} (h : s.Inv) (w : Word) : (refuseWord w s).Inv := by
  unfold refuseWord
  split
  · exact h
  · exact h.raiseFault _ _

/-- Reset establishes the invariant from any state (R22). -/
theorem State.resetEngine_inv (s : State) : s.resetEngine.Inv :=
  ⟨fun h => absurd h Bool.false_ne_true, fun _ => rfl, Nat.zero_le 6, fun _ => rfl⟩

/-- No seed makes the pair `(0, 0)`: `F(S1)` with `S1 = 0` is `F(0)`, which is not 0 (R61, R63). -/
theorem seedGen_ne_zero (v : Word) : seedGen v ≠ Gen.zero := by
  intro h
  have h1 : finalizer v = 0 := congrArg Gen.s1 h
  have h0 : finalizer (finalizer v) = 0 := congrArg Gen.s0 h
  rw [h1] at h0
  exact absurd h0 (by decide)

/-- Every command keeps the invariant. -/
theorem CommandEffect.inv {i : Instr} {s t : State} (h : CommandEffect i s t) (hs : s.Inv) : t.Inv := by
  cases h with
  | cleared => exact hs.clearFault
  | discarded => exact hs
  | refused _ _ c => exact hs.raiseFault c _
  | seeds => exact .of_seeded rfl (seedGen_ne_zero s.arg0) hs.faultRegsOk
  | loads _ _ hg => exact .of_seeded rfl hg hs.faultRegsOk
  | computes => exact hs.congr rfl rfl rfl rfl
  | draws _ _ hseeded _ ht =>
    obtain ⟨n, v, rfl⟩ := ht
    exact .of_seeded hseeded (next_iterate_ne_zero s.gen (hs.genOk hseeded) n) hs.faultRegsOk

/-- Every step keeps the invariant. -/
theorem StepEffect.inv {s t : State} (h : StepEffect s t) (hs : s.Inv) : t.Inv := by
  cases h with
  | idle => exact hs
  | reads => exact hs.congr rfl rfl rfl rfl
  | writes i v rest => exact (hs.withPending rest).congr (by simp) (by simp) (by simp) (by simp)
  | runs w i rest _ _ _ he => exact (exec_effect i _ _ he).inv (hs.withPending rest)
  | illegal w _ rest => exact refuseWord_inv (hs.withPending rest) w
  | resets => exact State.resetEngine_inv _
  | abandoned => exact State.resetEngine_inv _

/-- Settles O52: the effect of a step keeps each part of the invariant. -/
theorem stepKeepsInvariants : Obligations.StepKeepsInvariants :=
  fun s t hs h => (step_effect s t h).inv hs

/-- Settles O53: under the invariant of R11 no command hangs, so the step completes, and it keeps the invariant. -/
theorem everyStepCompletes : Obligations.EveryStepCompletes := by
  intro s hs
  obtain ⟨t, h⟩ := step_completes s hs.genOk
  exact ⟨t, h, stepKeepsInvariants s t hs h⟩

/-- Settles O54: every condition of the hang is one whose failure lets the command complete. -/
theorem hangsOnlyInForbiddenState : Obligations.HangsOnlyInForbiddenState := by
  intro i s f h
  have hstuck : ¬∃ t, exec i s = .next t := by
    rintro ⟨t, e⟩
    cases h.symm.trans e
  have hcond := mt (exec_completes i s) hstuck
  push Not at hcond
  obtain ⟨hi, hf, hs, hg⟩ := hcond
  exact ⟨hi, s.faulted_eq_false_iff.mp hf, hs, hg⟩

/-- Settles O51: `State.reset` is itself the reset of an engine. -/
theorem resetMeetsInvariants : Obligations.ResetMeetsInvariants := State.resetEngine_inv State.reset

/-- Settles O10: a reset step leaves the reset values in every register. -/
theorem resetRegisterValues : Obligations.ResetRegisterValues :=
  ⟨fun s rest h => ⟨_, step_reset s rest h, by simp⟩, by decide⟩

/-! ## Which steps change SEEDED and the generator state (R10, R13) -/

/-- Settles O11: of the effects of a step only SEED, LDST and reset reach `SEEDED`; R11's invariant shuts out the hang that a
reset abandons. -/
theorem seededChangesOnlyBySeedLdstReset : Obligations.SeededChangesOnlyBySeedLdstReset := by
  intro s t hs h hne
  cases step_effect s t h with
  | idle => exact absurd rfl hne
  | reads => exact absurd rfl hne
  | writes => exact absurd (by simp) hne
  | illegal => exact absurd (by simp) hne
  | resets rest hp => exact .inr ⟨rfl, rest, hp⟩
  | abandoned _ i _ _ _ he => exact absurd he (exec_ne_fault_of_genOk i _ _ hs)
  | runs w i rest hp hd _ he =>
    obtain rfl := encode_of_decode hd
    rcases (exec_effect i _ _ he).seeded_cases with e | ⟨ht, rfl | rfl⟩
    · exact absurd e.symm hne
    · exact .inl ⟨ht, rest, .inl hp⟩
    · exact .inl ⟨ht, rest, .inr hp⟩

/-- Settles O50: the same for the pair `S0`, `S1`, which the state-consuming commands of a seeded engine advance too. -/
theorem genChangesOnlyByGeneratorCommands : Obligations.GenChangesOnlyByGeneratorCommands := by
  intro s t hs h
  cases step_effect s t h with
  | idle => exact .inl rfl
  | reads => exact .inl rfl
  | writes => exact .inl (by simp)
  | illegal => exact .inl (by simp)
  | resets rest hp => exact .inr (.inr (.inr (.inr ⟨rest, hp⟩)))
  | abandoned _ i _ _ _ he => exact absurd he (exec_ne_fault_of_genOk i _ _ hs)
  | runs w i rest hp hd _ he =>
    obtain rfl := encode_of_decode hd
    rcases (exec_effect i _ _ he).gen_cases with e | ⟨hi, hseeded⟩ | rfl | rfl
    · exact .inl e
    · exact .inr (.inl ⟨i, rest, hi, hseeded, hp⟩)
    · exact .inr (.inr (.inl ⟨rest, hp⟩))
    · exact .inr (.inr (.inr (.inl ⟨rest, hp⟩)))

/-! ## Frames (R10, R14, R15) -/

/-- Settles O45: a pure command is no generator command, so its effect leaves the generator state, and it is not CLRERR, so only
a refusal reaches the fault registers. -/
theorem frameOfPureCommands : Obligations.FrameOfPureCommands := by
  intro i s t hi h
  have hc : i ≠ .clrErr ∧ i ∉ stateConsuming ∧ ¬(i = .seed ∨ i = .ldst) := by
    revert hi
    cases i <;> decide
  have hfree : i ≠ .shuffle → i ∈ [Instr.seed, .mix32, .unitFromBits, .eunitFromBits] := by
    revert hi
    cases i <;> decide
  obtain ⟨hclr, hdraw, hinstall⟩ := hc
  have he := exec_effect i s t h
  have hgen : t.gen = s.gen := he.gen_cases.resolve_right (by simp [hdraw, hinstall])
  have hseeded : t.seeded = s.seeded := he.seeded_cases.resolve_right (by simp [hinstall])
  obtain ⟨h0, h1, h2, hp, hl⟩ := he.keeps_operands
  refine ⟨congrArg Gen.s0 hgen, congrArg Gen.s1 hgen, hseeded, h0, h1, h2, hp, hl, fun hne => ?_,
    fun hi => exec_keeps_faultRegs (hfree hi) h, he.finfo_eq hclr⟩
  obtain ⟨c, rfl⟩ := he.eq_raiseFault hclr hne
  rfl

/-- Settles O46: a state-consuming command is not CLRERR, SEED or LDST, so `SEEDED` stays and a fault leaves all but the fault
registers. -/
theorem frameOfStateConsumingCommands : Obligations.FrameOfStateConsumingCommands := by
  intro i s t hi h
  have hc : i ≠ .clrErr ∧ ¬(i = .seed ∨ i = .ldst) := by
    revert hi
    cases i <;> decide
  obtain ⟨hclr, hinstall⟩ := hc
  have he := exec_effect i s t h
  have hseeded : t.seeded = s.seeded := he.seeded_cases.resolve_right (by simp [hinstall])
  obtain ⟨h0, h1, h2, hp, hl⟩ := he.keeps_operands
  refine ⟨hseeded, h0, h1, h2, hp, hl, fun hne => ?_, he.finfo_eq hclr⟩
  obtain ⟨c, rfl⟩ := he.eq_raiseFault hclr hne
  exact ⟨rfl, rfl, rfl⟩

/-- Settles O47: SEED and LDST give no result, and a refusal (of LDST only) leaves all but the fault registers. -/
theorem frameOfSeedAndLdst : Obligations.FrameOfSeedAndLdst := by
  intro i s t hi h
  have hinstall : i = .seed ∨ i = .ldst := by simpa using hi
  have hclr : i ≠ .clrErr := by
    rintro rfl
    simp at hinstall
  have he := exec_effect i s t h
  obtain ⟨h0, h1, h2, hp, hl⟩ := he.keeps_operands
  refine ⟨h0, h1, h2, he.res_eq_of_seed_or_ldst hinstall, hp, hl, fun hne => ?_,
    fun hi => exec_keeps_faultRegs (by simp [hi]) h, he.finfo_eq hclr⟩
  obtain ⟨c, rfl⟩ := he.eq_raiseFault hclr hne
  exact ⟨rfl, rfl, rfl⟩

/-! ## A register that a command does not read (R48) -/

section writeReg

variable (s : State) (r : RegIndex) (v : Word)

theorem State.writeReg_arg0_of_unread {args : List RegIndex} (hr : r ∉ args) (h : 2 ∈ args) :
    (s.writeReg r v).arg0 = s.arg0 := by
  rw [State.writeReg_arg0, if_neg (ne_of_mem_of_not_mem h hr).symm]

theorem State.writeReg_arg1_of_unread {args : List RegIndex} (hr : r ∉ args) (h : 3 ∈ args) :
    (s.writeReg r v).arg1 = s.arg1 := by
  rw [State.writeReg_arg1, if_neg (ne_of_mem_of_not_mem h hr).symm]

theorem State.writeReg_arg2_of_unread {args : List RegIndex} (hr : r ∉ args) (h : 4 ∈ args) :
    (s.writeReg r v).arg2 = s.arg2 := by
  rw [State.writeReg_arg2, if_neg (ne_of_mem_of_not_mem h hr).symm]

/-! A port write commutes with what commands write. -/

@[simp] theorem State.setRes_writeReg (x : Word) : (s.writeReg r v).setRes x = (s.setRes x).writeReg r v := by
  fin_cases r <;> rfl

@[simp] theorem State.setGen_writeReg (g : Gen) : (s.writeReg r v).setGen g = (s.setGen g).writeReg r v := by
  fin_cases r <;> rfl

@[simp] theorem State.install_writeReg (g : Gen) : (s.writeReg r v).install g = (s.install g).writeReg r v := by
  fin_cases r <;> rfl

@[simp] theorem State.raiseFault_writeReg (c : FaultCode) (w : Word) :
    (s.writeReg r v).raiseFault c w = (s.raiseFault c w).writeReg r v := by
  fin_cases r <;> rfl

@[simp] theorem State.clearFault_writeReg : (s.writeReg r v).clearFault = s.clearFault.writeReg r v := by
  fin_cases r <;> rfl

@[simp] theorem advanceInto_writeReg (result : Word → Word) :
    advanceInto result (s.writeReg r v) = (advanceInto result s).writeReg r v := by
  simp [advanceInto]

/-- The outcome with a port write put after it. -/
def thenWriteReg (o : Result) : Result :=
  match o with
  | .next t => .next (t.writeReg r v)
  | .fault f => .fault f
  | .refused x => .refused x

@[simp] theorem thenWriteReg_next (t : State) : thenWriteReg r v (.next t) = .next (t.writeReg r v) := rfl

@[simp] theorem thenWriteReg_fault (f : Fault) : thenWriteReg r v (.fault f) = .fault f := rfl

/-- The gate looks at no operand register, so only the command's own rule has to commute with the write. -/
theorem acceptCommand_writeReg (i : Instr) (run : State → Result)
    (hrun : run (s.writeReg r v) = thenWriteReg r v (run s)) :
    acceptCommand i run (s.writeReg r v) = thenWriteReg r v (acceptCommand i run s) := by
  unfold acceptCommand
  rw [State.writeReg_faulted, State.writeReg_seeded]
  split
  · rfl
  · split
    · simp
    · exact hrun

@[simp] theorem drawInto_writeReg (bound : Word) (result : Word → Word) :
    drawInto bound result (s.writeReg r v) = thenWriteReg r v (drawInto bound result s) := by
  rw [drawInto, drawInto, State.writeReg_gen]
  cases boundedDraw bound s.gen with
  | none => rfl
  | some d => simp [finishDraw]

theorem drawRange_writeReg (i : Instr) (h0 : (s.writeReg r v).arg0 = s.arg0) (h1 : (s.writeReg r v).arg1 = s.arg1) :
    drawRange i (s.writeReg r v) = thenWriteReg r v (drawRange i s) := by
  rw [drawRange, drawRange, h0, h1]
  split <;> simp

theorem walkInto_writeReg (h0 : (s.writeReg r v).arg0 = s.arg0) (h1 : (s.writeReg r v).arg1 = s.arg1)
    (h2 : (s.writeReg r v).arg2 = s.arg2) : walkInto (s.writeReg r v) = thenWriteReg r v (walkInto s) := by
  rw [walkInto, walkInto, h0, h1, h2]
  cases shuffleIndex s.arg0 s.arg1 s.arg2 with
  | none => rfl
  | some x => simp [finishWalk]

/-- A command commutes with a write of a register that it does not read (R48). -/
theorem exec_writeReg (i : Instr) (hr : r ∉ argsRead i) : exec i (s.writeReg r v) = thenWriteReg r v (exec i s) := by
  have h0 := s.writeReg_arg0_of_unread r v hr
  have h1 := s.writeReg_arg1_of_unread r v hr
  have h2 := s.writeReg_arg2_of_unread r v hr
  cases i with
  | clrErr => simp [exec, execClrErr]
  | advance =>
    simp only [exec, execAdvance]
    exact acceptCommand_writeReg s r v _ _ (by simp)
  | floatUnit =>
    simp only [exec, execFloatUnit]
    exact acceptCommand_writeReg s r v _ _ (by simp)
  | floatEunit =>
    simp only [exec, execFloatEunit]
    exact acceptCommand_writeReg s r v _ _ (by simp)
  | seed =>
    simp only [exec, execSeed]
    exact acceptCommand_writeReg s r v _ _ (by simp [h0 (by decide)])
  | mix32 =>
    simp only [exec, execMix32]
    exact acceptCommand_writeReg s r v _ _ (by simp [h0 (by decide)])
  | unitFromBits =>
    simp only [exec, execUnitFromBits]
    exact acceptCommand_writeReg s r v _ _ (by simp [h0 (by decide)])
  | eunitFromBits =>
    simp only [exec, execEunitFromBits]
    exact acceptCommand_writeReg s r v _ _ (by simp [h0 (by decide)])
  | ldst =>
    simp only [exec, execLdst]
    refine acceptCommand_writeReg s r v _ _ ?_
    rw [h0 (by decide), h1 (by decide)]
    split <;> simp
  | u32To =>
    simp only [exec, execU32To]
    refine acceptCommand_writeReg s r v _ _ ?_
    rw [h0 (by decide)]
    split <;> simp
  | oneIn =>
    simp only [exec, execOneIn]
    refine acceptCommand_writeReg s r v _ _ ?_
    rw [h0 (by decide)]
    split <;> simp
  | u32In =>
    simp only [exec, execU32In]
    refine acceptCommand_writeReg s r v _ _ ?_
    rw [h0 (by decide), h1 (by decide), drawRange_writeReg s r v _ (h0 (by decide)) (h1 (by decide))]
    split <;> simp
  | s32In =>
    simp only [exec, execS32In]
    refine acceptCommand_writeReg s r v _ _ ?_
    rw [h0 (by decide), h1 (by decide), drawRange_writeReg s r v _ (h0 (by decide)) (h1 (by decide))]
    split <;> simp
  | shuffle =>
    simp only [exec, execShuffle]
    refine acceptCommand_writeReg s r v _ _ ?_
    rw [h0 (by decide), h1 (by decide), walkInto_writeReg s r v (h0 (by decide)) (h1 (by decide)) (h2 (by decide))]
    split <;> simp

end writeReg

/-- Settles O49: the command commutes with the write, so its outcome is the same one with the write put after it. -/
theorem commandsIgnoreUnnamedOperands : Obligations.CommandsIgnoreUnnamedOperands := by
  intro i r v s t hr
  rw [exec_writeReg s r v i hr]
  refine ⟨fun h => ?_, fun h => ?_⟩
  · rw [h, thenWriteReg_next]
  · rw [h, thenWriteReg_fault]

/-! ## Saving and restoring the stream (R24, R55) -/

/-- A run goes on from the state that a step answers. -/
theorem coreRun_of_step {M : Host.Core} {n : Nat} {s t : M.State} (h : M.step s = .next t) :
    M.run (n + 1) s = M.run n t := by
  rw [Host.Core.run, h]

theorem run_of_step {n : Nat} {s t : State} (h : step s = .next t) : core.run (n + 1) s = core.run n t :=
  coreRun_of_step (M := core) h

/-- LDST loads a pair that is not `(0, 0)` into an engine that is not faulted (R67). -/
theorem exec_ldst (s : State) (hf : s.err = 0) (hg : (⟨s.arg0, s.arg1⟩ : Gen) ≠ Gen.zero) :
    exec .ldst s = .next (s.install ⟨s.arg0, s.arg1⟩) := by
  have hz : ¬(s.arg0 = 0 ∧ s.arg1 = 0) := fun ⟨h0, h1⟩ => hg (by rw [h0, h1]; rfl)
  rw [exec, execLdst, acceptCommand_of_ready _ _ s (s.faulted_eq_false_iff.mpr hf) (by simp), if_neg hz]

theorem step_of_exec (s t : State) (i : Instr) (rest : List Transaction) (hp : s.pending = .write 0 (encode i) :: rest)
    (h : exec i (s.withPending rest) = .next t) : step s = .next t := by
  rw [step_command s _ i rest hp (decode_encode i), h, abandonIfReset_next]

theorem run_getstate (s : State) :
    core.run 2 (s.withPending Pseudo.getstate.expand) =
      .next { s with pending := [], readLog := s.s1 :: s.s0 :: s.readLog } := by
  refine (run_of_step (step_read _ regS0 [.read regS1] rfl)).trans ?_
  exact run_of_step (step_read _ regS1 [] rfl)

theorem run_ldst (u : State) (g : Gen) (hg : g ≠ Gen.zero) (hf : u.err = 0) :
    core.run 3 (u.withPending (Pseudo.ldst g.s0 g.s1).expand) =
      .next { u with s0 := g.s0, s1 := g.s1, seeded := true, arg0 := g.s0, arg1 := g.s1, pending := [] } := by
  refine (run_of_step (step_write _ regArg0 g.s0 [.write regArg1 g.s1, cmdLine .ldst] rfl (by decide))).trans ?_
  refine (run_of_step (step_write _ regArg1 g.s1 [cmdLine .ldst] rfl (by decide))).trans ?_
  exact run_of_step (step_of_exec _ _ .ldst [] rfl (exec_ldst _ hf hg))

/-- Settles O55: the run of each pseudo-instruction, line by line. -/
theorem savedStreamIsRestored : Obligations.SavedStreamIsRestored :=
  fun s u hg hf => ⟨run_getstate s, run_ldst u s.gen hg hf⟩

end Sys2Proof.Machine
end

section
/-! Proofs of the family `20_memory.md`: the register port (R32 to R34) and the command that a write to `CMD` runs (R40, R49). -/

namespace Sys2Proof.Machine

/-! ## The register port (R18, R32 to R34) -/

/-- Concatenation puts the first word above the second. -/
theorem toNat_append_eq_mul_add {m n : Nat} (x : BitVec m) (y : BitVec n) :
    (x ++ y).toNat = x.toNat * 2 ^ n + y.toNat := by
  rw [BitVec.toNat_append, ← Nat.shiftLeft_add_eq_or_of_lt y.isLt, Nat.shiftLeft_eq]

/-- `STATUS` as a number: `ERR` above four bits of which only the lowest, `SEEDED`, is in use (R18). -/
theorem State.status_toNat (s : State) : s.status.toNat = s.err.toNat * 16 + s.seeded.toNat := by
  simp only [State.status, State.seededBit, toNat_append_eq_mul_add, BitVec.toNat_ofBool, BitVec.ofNat_eq_ofNat,
    BitVec.toNat_ofNat]
  omega

/-- A reserved index reads as 0 (R32, R34). -/
theorem State.portRead_reserved (s : State) (i : RegIndex) (hi : 9 ≤ i.val) : s.portRead i = 0 := by
  unfold State.portRead
  split
  case h_10 => rfl
  all_goals omega

/-- A write to a read-only or reserved index stores nothing (R34). -/
theorem State.writeReg_inert (s : State) (i : RegIndex) (v : Word) (hi : i.val = 1 ∨ 5 ≤ i.val) :
    s.writeReg i v = s := by
  unfold State.writeReg
  split
  case h_4 => rfl
  all_goals omega

theorem RegIndex.ne_zero_of_inert {i : RegIndex} (hi : i.val = 1 ∨ 5 ≤ i.val) : i ≠ 0 := by
  rintro rfl
  simp at hi

/-! ## The obligations -/

/-- Settles O4: the step passes on the outcome of the decoded command or, for a hang with a reset behind it, abandons it. -/
theorem stepRunsIssuedCommand : Obligations.StepRunsIssuedCommand := by
  intro s w i rest hp hd
  have hstep : step s = abandonIfReset rest (s.withPending rest) (exec i { s with pending := rest }) :=
    step_command s w i rest hp hd
  refine ⟨fun t he => ?_, fun he hr => ?_, fun later he hr => ?_⟩
  · rw [hstep, he, abandonIfReset_next]
  · rw [hstep, he, abandonIfReset_hang _ _ hr]
  · rw [hstep, he, hr, abandonIfReset_hang_reset, State.withPending_readLog]

/-- Settles O6: `STATUS` is the one view that is not its register as it stands, and the step of a read only logs the value. -/
theorem portReadsRegisters : Obligations.PortReadsRegisters :=
  ⟨fun s => ⟨rfl, s.status_toNat, rfl, rfl, rfl, rfl, rfl, rfl, rfl, s.portRead_reserved⟩, step_read⟩

/-- Settles O7: the step of a write to an index other than 0 is the store, and the store reaches the operand registers only. -/
theorem portWritesRegisters : Obligations.PortWritesRegisters := by
  intro s v rest
  refine ⟨fun hp => ?_, fun hp => ?_, fun hp => ?_, fun i hi hp => ?_⟩
  · exact step_write s 2 v rest hp (by decide)
  · exact step_write s 3 v rest hp (by decide)
  · exact step_write s 4 v rest hp (by decide)
  · rw [step_write s i v rest hp (RegIndex.ne_zero_of_inert hi), State.writeReg_inert _ i v hi]
    rfl

/-- Settles O8: a reserved index reads as 0, and a write to an index that stores nothing answers the same state. -/
theorem reservedLocationsAreInert : Obligations.ReservedLocationsAreInert := by
  intro s i v
  refine ⟨s.portRead_reserved i, fun hi => ?_⟩
  rw [portWrite, if_neg (RegIndex.ne_zero_of_inert hi), s.writeReg_inert i v hi]

end Sys2Proof.Machine
end

section
/-! Proofs of the family `30_encoding.md`: the two fields of a command word, the opcode map, and the words that name no
command (R45 to R47, R50). -/

namespace Sys2Proof.Machine

/-! ## The opcode map (R47) -/

/-- The opcode map: every command with its own word. -/
def opcodeMap : List (Word × Instr) := Instr.all.map fun i => (encode i, i)

theorem Instr.mem_all (i : Instr) : i ∈ Instr.all := by
  cases i <;> decide

/-- A command has one row of the opcode map, that of its word. -/
theorem mem_opcodeMap_iff (w : Word) (i : Instr) : (w, i) ∈ opcodeMap ↔ w = encode i := by
  simp [opcodeMap, Instr.mem_all, eq_comm]

/-! ## A word spelled from its fields (R45) -/

/-- The reserved field of a spelled word is its first 24 bits. -/
@[simp] theorem rsvField_append (rsv : BitVec 24) (op : OpCode) : rsvField (rsv ++ op) = rsv :=
  BitVec.extractLsb'_append_eq_left

/-- The opcode field of a spelled word is its last 8 bits. -/
@[simp] theorem opField_append (rsv : BitVec 24) (op : OpCode) : opField (rsv ++ op) = op :=
  BitVec.extractLsb'_append_eq_right

/-- Reserved bits that are zero leave the choice of the command to the opcode (R46). -/
theorem decode_zero_append {op : OpCode} {i : Instr} (h : commandOf op = some i) :
    decode ((0 : BitVec 24) ++ op) = .ok i := by
  rw [decode, rsvField_append, if_pos rfl, opField_append, h]

/-- A reserved bit that is set refuses the word, whatever its opcode (R50). -/
theorem decode_append_of_rsv_ne_zero {rsv : BitVec 24} (op : OpCode) (h : rsv ≠ 0) :
    decode (rsv ++ op) = .error .reservedBits := by
  rw [decode, rsvField_append, if_neg h]

/-! ## The legal words (R46, R50) -/

@[simp] theorem opField_toNat (w : Word) : (opField w).toNat = w.toNat % 2 ^ 8 := by
  rw [opField, BitVec.extractLsb'_toNat, Nat.shiftRight_zero]

theorem rsvField_toNat (w : Word) : (rsvField w).toNat = w.toNat / 2 ^ 8 := by
  rw [rsvField, BitVec.extractLsb'_toNat, Nat.shiftRight_eq_div_pow]
  omega

/-- The check on the reserved bits is that of the decoder. -/
theorem rsvOk_iff (w : Word) : rsvOk w = true ↔ rsvField w = 0 := by
  rw [rsvOk, ← rsvField_toNat, beq_iff_eq, ← BitVec.toNat_inj, BitVec.ofNat_eq_ofNat, BitVec.toNat_zero]

/-- The list of unassigned opcodes of R50 is the complement of the opcode map of R47. -/
theorem opUnassigned_toNat_iff (op : OpCode) : opUnassigned op.toNat = true ↔ commandOf op = none := by
  have hlt : op.toNat < 2 ^ 8 := op.isLt
  unfold commandOf
  split
  case h_15 =>
    simp only [imp_false] at *
    simp only [opUnassigned, Bool.or_eq_true, Bool.and_eq_true, beq_iff_eq, decide_eq_true_eq, iff_true]
    omega
  all_goals simp [opUnassigned, *]

theorem wordLegal_iff_fields (w : Word) : wordLegal w = true ↔ rsvField w = 0 ∧ commandOf (opField w) ≠ none := by
  rw [wordLegal, Bool.and_eq_true, rsvOk_iff, ← opField_toNat, Bool.not_eq_true', ← Bool.not_eq_true,
    opUnassigned_toNat_iff]

/-- The legal words are those that decode (R46). -/
theorem wordLegal_iff_decode (w : Word) : wordLegal w = true ↔ ∃ i, decode w = .ok i := by
  rw [wordLegal_iff_fields, decode]
  by_cases hr : rsvField w = 0
  · rw [if_pos hr]
    cases commandOf (opField w) <;> simp [hr]
  · rw [if_neg hr]
    exact iff_of_false (fun ⟨h, _⟩ => hr h) nofun

/-- A word that is not legal is refused by the decoder, for its reserved bits or for its opcode (R50). -/
theorem decode_error_of_not_legal {w : Word} (h : wordLegal w = false) : ∃ e, decode w = .error e := by
  cases hd : decode w with
  | error e => exact ⟨e, rfl⟩
  | ok i => exact absurd ((wordLegal_iff_decode w).mpr ⟨i, hd⟩) (by simp [h])

/-- An engine that is not faulted answers a word that names no command with fault entry (R50). -/
theorem refuseWord_of_not_faulted (w : Word) (s : State) (h : s.faulted = false) :
    refuseWord w s = s.raiseFault .illegalCmd w := by
  rw [refuseWord, h, if_neg Bool.false_ne_true]

/-! ## The obligations -/

/-- Settles O1: the decoder and `opcodeMap` both pair each command with its own word, and the rows of the
table evaluate to `opcodeMap`. -/
theorem decodeAndEncodeAgree : Obligations.DecodeAndEncodeAgree :=
  ⟨decode_encode, fun w i => (decode_eq_ok_iff w i).trans (mem_opcodeMap_iff w i).symm⟩

/-- Settles O3: the checks of R50 are those of the decoder, and a step with a word that fails them is fault entry. -/
theorem illegalWordsFault : Obligations.IllegalWordsFault := by
  refine ⟨wordLegal_iff_decode, by decide +kernel, fun s w rest hp he hw => ?_⟩
  obtain ⟨e, hd⟩ := decode_error_of_not_legal hw
  rw [step_illegal s w e rest hp hd, refuseWord_of_not_faulted w (s.withPending rest) (s.faulted_eq_false_iff.mpr he)]
  rfl

/-- Settles O2: the fields of a spelled word are the ones written, and each opcode has its row of the opcode map. -/
theorem spelledWordsDecode : Obligations.SpelledWordsDecode :=
  ⟨decode_zero_append rfl, decode_zero_append rfl, decode_zero_append rfl, decode_zero_append rfl, decode_zero_append rfl,
   decode_append_of_rsv_ne_zero _ (by decide)⟩

end Sys2Proof.Machine
end

section
/-! Proofs of the family `40_core_advance.md`: the finalizer F (R60, R61), the transition and the raw word of `Advance`
(R64, R65), and the four commands made of them: MIX32 (R62), SEED (R63), ADVANCE (R66) and LDST (R67). -/

namespace Sys2Proof.Machine

/-! ## The finalizer (R60, R61) -/

@[simp] theorem xorShift_toNat (k : Nat) (z : Word) : (xorShift k z).toNat = z.toNat ^^^ z.toNat / 2 ^ k := by
  rw [xorShift, BitVec.toNat_xor, BitVec.toNat_ushiftRight, Nat.shiftRight_eq_div_pow]

/-- Only 0 is its own right shift by one bit or more. -/
theorem eq_zero_of_eq_shr32 {k : Nat} (hk : k ≠ 0) {d : Word} (h : d = shr32 d k) : d = 0 := by
  have hn : d.toNat = d.toNat / 2 ^ k := by
    rw [← Nat.shiftRight_eq_div_pow, ← BitVec.toNat_ushiftRight]
    exact congrArg BitVec.toNat h
  by_contra hd
  have hpos : 0 < d.toNat := Nat.pos_of_ne_zero fun h0 => hd (BitVec.eq_of_toNat_eq h0)
  exact (Nat.div_lt_self hpos (Nat.one_lt_two_pow hk)).ne' hn

/-- The difference of two words with the same xor-shift is its own right shift (R61). -/
theorem xorShift_injective {k : Nat} (hk : k ≠ 0) : Function.Injective (xorShift k) := by
  intro x y h
  refine BitVec.xor_eq_zero_iff.mp (eq_zero_of_eq_shr32 hk (BitVec.xor_eq_zero_iff.mp ?_))
  calc (x ^^^ y) ^^^ shr32 (x ^^^ y) k
      = xorShift k x ^^^ xorShift k y := by
        rw [shr32, BitVec.ushiftRight_xor_distrib, xorShift, xorShift]
        ac_rfl
    _ = 0 := by rw [h, BitVec.xor_self]; rfl

/-- Multiplication by a constant is undone by multiplication by its inverse. -/
theorem mul32_mul32_of_inverse {c d : Word} (h : c * d = 1) (x : Word) : mul32 c (mul32 d x) = x := by
  rw [mul32, mul32, ← mul_assoc, h, one_mul]

/-- F is a chain of injections: an addition, three xor-shifts and two multiplications by odd constants, whose inverses are
given here. -/
theorem finalizer_injective : Function.Injective finalizer := by
  have mul1 : Function.Injective (mul32 mixMul1) :=
    Function.LeftInverse.injective (mul32_mul32_of_inverse (c := 0xa5cb9243) (by decide))
  have mul2 : Function.Injective (mul32 mixMul2) :=
    Function.LeftInverse.injective (mul32_mul32_of_inverse (c := 0xa89ed915) (by decide))
  exact (xorShift_injective (by decide)).comp <| mul2.comp <| (xorShift_injective (by decide)).comp <| mul1.comp <|
    (xorShift_injective (by decide)).comp fun _ _ => add_left_cancel

theorem finalizer_eq_zero_iff (x : Word) : finalizer x = 0 ↔ x = 0x61c88647 :=
  finalizer_injective.eq_iff' (by decide)

/-- Settles O19: F is injective on a finite set, so it is onto. -/
theorem finalizerIsBijective : Obligations.FinalizerIsBijective :=
  ⟨Finite.injective_iff_bijective.mp finalizer_injective, by decide, finalizer_eq_zero_iff⟩

/-- One round of F on natural numbers (R60). -/
theorem mul32_xorShift_toNat (m : Word) (k : Nat) (z : Word) :
    (mul32 m (xorShift k z)).toNat = (z.toNat ^^^ z.toNat / 2 ^ k) * m.toNat % 2 ^ 32 := by
  rw [BitVec.toNat_mul, xorShift_toNat, Nat.mul_comm]

/-- Settles O18: each line of R60 on the value of the line before. -/
theorem finalizerFormula : Obligations.FinalizerFormula := by
  intro x
  have ha : (add32 golden x).toNat = (x.toNat + 0x9e3779b9) % 2 ^ 32 := by
    rw [BitVec.toNat_add, Nat.add_comm]
    rfl
  exact ⟨_, _, _, ha, mul32_xorShift_toNat mixMul1 mixShift1 _, mul32_xorShift_toNat mixMul2 mixShift2 _,
    xorShift_toNat mixShift3 _⟩

/-! ## The rotation (R9) -/

theorem rotl32_eq_rotateLeft (x : Word) {k : Nat} (hk : k < 32) : rotl32 x k = x.rotateLeft k := by
  rw [BitVec.rotateLeft_def, Nat.mod_eq_of_lt hk, rotl32]

/-- Two rotations that make up a full turn cancel: each bit comes back from one of the two shifts. -/
theorem rotl32_rotl32 (x : Word) {j k : Nat} (h : j + k = 32) : rotl32 (rotl32 x j) k = x := by
  have hj : 32 - j = k := by omega
  have hk : 32 - k = j := by omega
  ext i hi
  have outside : x.getLsbD (k + (j + i)) = false := x.getLsbD_of_ge _ (by omega)
  by_cases hik : i < k
  · have low : j + i < 32 := by omega
    simp [rotl32, hj, hk, hik, low, outside]
  · have high : ¬j + i < 32 := by omega
    have shifted : i - k < j := by omega
    have same : k + (i - k) = i := by omega
    simp [rotl32, hj, hk, hik, high, shifted, same, outside, BitVec.getLsbD_eq_getElem hi]

/-! ## The transition of `Advance` (R64, R65) -/

/-- The old state, from the new one (R65 item 1). -/
def Gen.prev (g : Gen) : Gen :=
  let t := rotl32 g.s1 19
  let a := rotl32 (g.s0 ^^^ t ^^^ (t <<< 9)) 6
  { s0 := a, s1 := t ^^^ a }

/-- The rotations by 19 and 6 undo those by 13 and 26, and each word xored in twice drops out. -/
theorem Gen.prev_next (g : Gen) : g.next.prev = g := by
  simp [Gen.prev, Gen.next, rotl32_rotl32, BitVec.xor_assoc]

theorem Gen.next_prev (g : Gen) : g.prev.next = g := by
  simp [Gen.prev, Gen.next, rotl32_rotl32, BitVec.xor_assoc]

/-! ## The raw word (R64, R65) -/

/-- The only `S0` with a given raw word: each operation of `Gen.raw` undone. -/
def rawPreimage (w : Word) : Word := mul32 0xbe736373 (rotl32 (mul32 0xcccccccd w) 27)

theorem rawPreimage_raw (g : Gen) : rawPreimage g.raw = g.s0 := by
  rw [rawPreimage, Gen.raw, mul32_mul32_of_inverse (by decide), rotl32_rotl32 _ rfl, mul32_mul32_of_inverse (by decide)]

theorem raw_rawPreimage (w s1 : Word) : (Gen.mk (rawPreimage w) s1).raw = w := by
  rw [Gen.raw, rawPreimage, mul32_mul32_of_inverse (by decide), rotl32_rotl32 _ rfl, mul32_mul32_of_inverse (by decide)]

theorem Gen.raw_eq_zero_iff (g : Gen) : g.raw = 0 ↔ g.s0 = 0 := by
  refine ⟨fun h => ?_, fun h => ?_⟩
  · rw [← rawPreimage_raw, h]
    decide
  · rw [Gen.raw, h]
    decide

/-- Settles O24: linearity and the fixed point stand in Laws/Period.lean, the formula of R65 is `Gen.prev`, and the raw word
determines `S0`. -/
theorem advanceIsBijective : Obligations.AdvanceIsBijective := by
  refine ⟨?_, ?_, ?_, ?_, ?_, ?_⟩
  · exact Function.bijective_iff_has_inverse.mpr ⟨Gen.prev, Gen.prev_next, Gen.next_prev⟩
  · exact Gen.next_xor
  · exact fun g => g.prev_next.symm
  · exact fun g => ⟨next_eq_zero g, fun h => by rw [h, Gen.next_zero]⟩
  · decide
  · exact Gen.raw_eq_zero_iff

/-- Settles O25: beside `S1 = 1` the preimage of the word makes a state that is not `(0, 0)`, and such a state comes within the
period. -/
theorem everyRawWordIsProduced : Obligations.EveryRawWordIsProduced := by
  intro g w hg
  have hw : Gen.mk (rawPreimage w) 1 ≠ Gen.zero := fun h =>
    absurd (congrArg Gen.s1 h) (by decide : (1 : Word) ≠ 0)
  obtain ⟨n, hn, e⟩ := next_iterate_surjective g _ hg hw
  exact ⟨n, hn, e ▸ raw_rawPreimage w 1⟩

/-- Settles O23: the model's rotation is the library's, and its constants stand first in their products. -/
theorem advanceFormula : Obligations.AdvanceFormula := by
  intro g
  refine ⟨?_, ?_⟩
  · rw [Gen.raw, rotl32_eq_rotateLeft _ (by decide), mul32, mul32, BitVec.mul_comm 5, BitVec.mul_comm advanceMul]
    rfl
  · rw [Gen.next, rotl32_eq_rotateLeft _ (by decide), rotl32_eq_rotateLeft _ (by decide)]

/-! ## The commands (R62, R63, R66, R67) -/

/-- An engine that is not faulted runs a command that needs no generator state (R49). -/
theorem acceptCommand_of_err_eq_zero {i : Instr} (run : State → Result) {s : State} (hn : needsSeeded i = false)
    (he : s.err = 0) : acceptCommand i run s = run s :=
  acceptCommand_of_ready i run s (s.faulted_eq_false_iff.mpr he) (by simp [hn])

/-- Settles O20: MIX32 needs no generator state, so only a fault keeps it from its rule. -/
theorem mixWritesFinalizer : Obligations.MixWritesFinalizer := by
  refine ⟨fun s he => ?_, fun s he => ?_, by decide, by decide, by decide, by decide⟩
  · rw [exec, execMix32, acceptCommand_of_err_eq_zero _ rfl he]
    rfl
  · rw [exec, execMix32, acceptCommand_of_faulted _ _ s (s.faulted_eq_true_iff.mpr he)]

/-- Settles O21: F is injective, so 0 has one preimage under F and one under F after F. -/
theorem seedCreatesState : Obligations.SeedCreatesState := by
  refine ⟨fun s he => ?_, fun x => ⟨fun h => ?_, finalizer_eq_zero_iff x, ?_, by decide, by decide, by decide, by decide⟩⟩
  · rw [exec, execSeed, acceptCommand_of_err_eq_zero _ rfl he]
    rfl
  · exact seedGen_ne_zero x (congrArg (fun p => Gen.mk p.1 p.2) h)
  · exact (finalizer_injective.comp finalizer_injective).eq_iff' (by decide)

/-- Settles O22: the refusal is LDST's own, after the gate. -/
theorem ldstLoadsState : Obligations.LdstLoadsState := by
  intro s he
  refine ⟨fun hz => exec_ldst s he fun h => hz (by simpa [Gen.zero] using h), fun h0 h1 => ?_⟩
  rw [exec, execLdst, acceptCommand_of_err_eq_zero _ rfl he, if_pos ⟨h0, h1⟩]
  rfl

/-- Settles O26: the gate asks for `SEEDED`; past it ADVANCE is one advance. -/
theorem advanceWritesRawWord : Obligations.AdvanceWritesRawWord := by
  intro s he
  have hf := s.faulted_eq_false_iff.mpr he
  refine ⟨fun hs => ?_, fun hs => ?_⟩
  · rw [exec, execAdvance, acceptCommand_of_ready _ _ s hf fun _ => hs]
    rfl
  · rw [exec, execAdvance, acceptCommand_of_unseeded _ _ s hf rfl hs]
    rfl

end Sys2Proof.Machine
end

section
/-! Proofs of the family `41_integer.md`: the threshold (R75), the counting behind the rejection loop (R76), the span of a range
in both orders (R78, R79), and the four commands that take a bounded draw: U32_TO (R77), U32_IN (R78), S32_IN (R79) and
ONE_IN (R80). -/

namespace Sys2Proof.Machine

/-! ## The threshold (R75) -/

theorem toNat_pos_iff (b : Word) : 0 < b.toNat ↔ b ≠ 0 :=
  Nat.pos_iff_ne_zero.trans (BitVec.toNat_inj (y := 0)).not

theorem umod_toNat_lt (a : Word) {b : Word} (hb : b ≠ 0) : (umod a b).toNat < b.toNat := by
  rw [BitVec.toNat_umod]
  exact Nat.mod_lt _ ((toNat_pos_iff b).mpr hb)

theorem threshold_toNat {b : Word} (hb : b ≠ 0) : (threshold b).toNat = (2 ^ 32 - b.toNat) % b.toNat := by
  have hpos := (toNat_pos_iff b).mpr hb
  rw [threshold, BitVec.toNat_umod, BitVec.toNat_neg, Nat.mod_eq_of_lt (a := 2 ^ 32 - b.toNat) (by omega)]

theorem threshold_toNat_eq_mod {b : Word} (hb : b ≠ 0) : (threshold b).toNat = 2 ^ 32 % b.toNat := by
  rw [threshold_toNat hb, ← Nat.mod_eq_sub_mod b.isLt.le]

theorem threshold_lt {b : Word} (hb : b ≠ 0) : (threshold b).toNat < b.toNat :=
  umod_toNat_lt _ hb

/-- A bound of at most `2^31` is above the threshold, and for a larger one the threshold is at most `2^32 - bound`. -/
theorem threshold_lt_two_pow_31 {b : Word} (hb : b ≠ 0) : (threshold b).toNat < 2 ^ 31 := by
  have hlt := threshold_lt hb
  have hle : (threshold b).toNat ≤ 2 ^ 32 - b.toNat := threshold_toNat hb ▸ Nat.mod_le _ _
  omega

/-- The divisors of `2^32` are powers of two. -/
theorem threshold_eq_zero_iff {b : Word} (hb : b ≠ 0) : threshold b = 0 ↔ ∃ k, b.toNat = 2 ^ k := by
  calc threshold b = 0
      ↔ b.toNat ∣ 2 ^ 32 := by
        rw [← BitVec.toNat_inj, threshold_toNat_eq_mod hb, Nat.dvd_iff_mod_eq_zero]
        rfl
    _ ↔ ∃ k ≤ 32, b.toNat = 2 ^ k := Nat.dvd_prime_pow Nat.prime_two
    _ ↔ ∃ k, b.toNat = 2 ^ k := by
        refine exists_congr fun k => and_iff_right_of_imp fun h => ?_
        exact ((Nat.pow_lt_pow_iff_right Nat.one_lt_two).mp (h ▸ b.isLt)).le

theorem dvd_sub_threshold {b : Word} (hb : b ≠ 0) : b.toNat ∣ 2 ^ 32 - (threshold b).toNat := by
  rw [threshold_toNat_eq_mod hb]
  exact Nat.dvd_sub_mod _

/-- Settles O27: the facts on the remainder of `2^32`, one by one. -/
theorem thresholdFacts : Obligations.ThresholdFacts := fun _ hb =>
  ⟨threshold_toNat hb, threshold_toNat_eq_mod hb, threshold_lt hb, threshold_lt_two_pow_31 hb, threshold_eq_zero_iff hb,
    dvd_sub_threshold hb⟩

/-! ## The draw (R76) -/

/-- An accepted raw word ends the loop, whose fuel is no cap (R76). -/
theorem boundedDraw_of_acceptedAt {b : Word} {g : Gen} {n : Nat} (h : AcceptedAt (threshold b) g n) :
    boundedDraw b g = some (umod (Gen.next^[n] g).raw b, Gen.next^[n + 1] g) := by
  cases hl : drawLoop (threshold b) (drawFuel g) g with
  | none => exact absurd ((drawLoop_none_iff _ _).mp hl n) (by simp [h.2])
  | some r =>
    obtain ⟨m, -, hm, rfl⟩ := (drawLoop_eq_some_iff _ _ _ _).mp hl
    rw [boundedDraw, hl, hm.unique h]
    rfl

/-- An interval whose length is a multiple of `b` holds equally many numbers of each residue modulo `b`. -/
theorem card_Ico_filter_modEq {b m n : Nat} (r : Nat) (hb : 0 < b) (hmn : m ≤ n) (hd : b ∣ n - m) :
    ((Finset.Ico m n).filter (· ≡ r [MOD b])).card = (n - m) / b := by
  obtain ⟨q, hq⟩ := hd
  have hn : ((n : ℚ) - r) / b = (m - r) / b + q := by
    have hb' : (b : ℚ) ≠ 0 := by positivity
    rw [show n = m + b * q by omega]
    push_cast
    field_simp
    ring
  have hcard : (((Finset.Ico m n).filter (· ≡ r [MOD b])).card : ℤ) = q := by
    rw [Nat.Ico_filter_modEq_card _ _ hb, hn, Int.ceil_add_natCast]
    simp
  rw [hq, Nat.mul_div_cancel_left _ hb]
  exact_mod_cast hcard

/-- When the loop accepts the raw word `x` with the remainder `r`, on natural numbers. -/
theorem accepted_umod_iff {b r : Word} (hr : r.toNat < b.toNat) {x : Nat} (hx : x < 2 ^ 32) :
    ult (BitVec.ofNat 32 x) (threshold b) = false ∧ umod (BitVec.ofNat 32 x) b = r ↔
      (threshold b).toNat ≤ x ∧ x ≡ r.toNat [MOD b.toNat] := by
  rw [ult_eq_false_iff, ← BitVec.toNat_inj, BitVec.toNat_umod, BitVec.toNat_ofNat, Nat.mod_eq_of_lt hx, Nat.ModEq,
    Nat.mod_eq_of_lt hr]

/-- The accepted raw words with the remainder `r` are a residue class of the interval above the threshold. -/
theorem filter_accepted_eq {b r : Word} (hr : r.toNat < b.toNat) :
    ((Finset.range (2 ^ 32)).filter fun x =>
      ult (BitVec.ofNat 32 x) (threshold b) = false ∧ umod (BitVec.ofNat 32 x) b = r) =
      (Finset.Ico (threshold b).toNat (2 ^ 32)).filter (· ≡ r.toNat [MOD b.toNat]) := by
  ext x
  rw [Finset.mem_filter, Finset.mem_filter, Finset.mem_range, Finset.mem_Ico, and_comm (a := _ ≤ x), and_assoc]
  exact and_congr_right fun hx => accepted_umod_iff hr hx

/-- Settles O28: the accepted raw words are an interval whose length is a multiple of the bound. -/
theorem drawIsUnbiased : Obligations.DrawIsUnbiased := by
  refine fun b hb => ⟨fun g n => boundedDraw_of_acceptedAt, fun r hr => ?_⟩
  rw [filter_accepted_eq hr]
  exact card_Ico_filter_modEq _ ((toNat_pos_iff b).mpr hb) (threshold b).isLt.le (dvd_sub_threshold hb)

/-- Where the threshold is 0 the first raw word is accepted. -/
theorem acceptedAt_zero (g : Gen) : AcceptedAt 0 g 0 :=
  ⟨fun _ hj => absurd hj (Nat.not_lt_zero _), (ult_eq_false_iff _ _).mpr (Nat.zero_le _)⟩

/-- A bound that is a power of two takes exactly one advance (R77, R82). -/
theorem AcceptedAt.eq_zero_of_pow_two {b : Word} {g : Gen} {n : Nat} (hb : b ≠ 0) (h : AcceptedAt (threshold b) g n)
    (hk : ∃ k, b.toNat = 2 ^ k) : n = 0 :=
  h.unique ((threshold_eq_zero_iff hb).mpr hk ▸ acceptedAt_zero g)

/-! ## The gate (R49) -/

/-- Every command but CLRERR goes through the gate (R49). -/
theorem exec_eq_acceptCommand {i : Instr} (hi : i ≠ .clrErr) : ∃ run, exec i = acceptCommand i run := by
  cases i with
  | clrErr => exact absurd rfl hi
  | _ => exact ⟨_, rfl⟩

/-- A state-consuming command of an engine that is neither faulted nor seeded raises `UNSEEDED` (R13, R49). -/
theorem exec_of_unseeded {i : Instr} {s : State} (hn : needsSeeded i = true) (he : s.err = 0) (hs : s.seeded = false) :
    exec i s = .next (s.raiseFault .unseeded (encode i)) := by
  obtain ⟨run, e⟩ := exec_eq_acceptCommand (i := i) (by rintro rfl; cases hn)
  rw [e, acceptCommand_of_unseeded i run s (s.faulted_eq_false_iff.mpr he) hn hs]

/-! ## U32_TO and ONE_IN (R77, R80) -/

/-- Settles O29: the gate, the refusal of bound 0, and one draw. -/
theorem u32ToCompletes : Obligations.U32ToCompletes := by
  intro s he
  have hf := s.faulted_eq_false_iff.mpr he
  refine ⟨fun hs => ?_, fun hs hz => ?_, fun hs hg hz => ?_⟩
  · exact exec_of_unseeded rfl he hs
  · rw [exec, execU32To, acceptCommand_of_ready _ _ s hf fun _ => hs, if_pos hz]
    rfl
  · obtain ⟨n, hn, e⟩ := drawInto_completes s.arg0 id s hg
    refine ⟨n, hn, ?_, umod_toNat_lt _ hz, hn.eq_zero_of_pow_two hz⟩
    rw [exec, execU32To, acceptCommand_of_ready _ _ s hf fun _ => hs, if_neg hz, e]
    rfl

/-- Settles O32: chance 0 is decided after the gate and before any draw. -/
theorem oneInCompletes : Obligations.OneInCompletes := by
  intro s he
  have hf := s.faulted_eq_false_iff.mpr he
  refine ⟨fun hs => ?_, fun hs hz => ?_, fun hs hg hz => ?_⟩
  · exact exec_of_unseeded rfl he hs
  · rw [exec, execOneIn, acceptCommand_of_ready _ _ s hf fun _ => hs, if_pos hz]
    rfl
  · obtain ⟨n, hn, e⟩ := drawInto_completes s.arg0 (fun d => if d = 0 then 1 else 0) s hg
    refine ⟨n, hn, ?_⟩
    rw [exec, execOneIn, acceptCommand_of_ready _ _ s hf fun _ => hs, if_neg hz, e]
    rfl

/-! ## The span of a range (R78, R79) -/

theorem span_toNat {lo hi : Word} (h : lo.toNat ≤ hi.toNat) (hfull : ¬(lo = 0 ∧ hi = 0xFFFFFFFF)) :
    (span lo hi).toNat = hi.toNat - lo.toNat + 1 := by
  rw [span]
  bv_omega

/-- The same span measures the range of the signed values. -/
theorem span_toNat_signed {lo hi : Word} (h : lo.toInt ≤ hi.toInt) (hfull : ¬(lo = 0x80000000 ∧ hi = 0x7FFFFFFF)) :
    ((span lo hi).toNat : Int) = hi.toInt - lo.toInt + 1 := by
  simp only [BitVec.toInt_eq_toNat_cond] at h ⊢
  rw [span]
  bv_omega

/-- A draw that stays within `hi` is added to `lo` without a signed overflow. -/
theorem add_toInt_of_le {lo hi d : Word} (h : lo.toInt + d.toNat ≤ hi.toInt) :
    (lo + d).toInt = lo.toInt + d.toNat := by
  simp only [BitVec.toInt_eq_toNat_cond] at h ⊢
  bv_omega

/-- What both range commands do with a range that is not full: one draw of its span, added to the lower bound. -/
theorem drawRange_completes (i : Instr) {s : State} (hg : s.gen ≠ Gen.zero) (h : span s.arg0 s.arg1 ≠ 0) :
    ∃ n d, AcceptedAt (threshold (span s.arg0 s.arg1)) s.gen n ∧
      d.toNat = (Gen.next^[n] s.gen).raw.toNat % (span s.arg0 s.arg1).toNat ∧
      d.toNat < (span s.arg0 s.arg1).toNat ∧
      drawRange i s = .next ((s.setGen (Gen.next^[n + 1] s.gen)).setRes (s.arg0 + d)) := by
  obtain ⟨n, hn, e⟩ := drawInto_completes (span s.arg0 s.arg1) (add32 s.arg0) s hg
  refine ⟨n, _, hn, BitVec.toNat_umod, umod_toNat_lt _ h, ?_⟩
  rw [drawRange, if_neg h, e]

/-- The span of the full range wraps to 0. -/
theorem drawRange_of_span_eq_zero (i : Instr) {s : State} (h : span s.arg0 s.arg1 = 0) :
    drawRange i s = .next (s.raiseFault .zeroBound (encode i)) := by
  rw [drawRange, if_pos h, refuseCommand_eq]

/-! ## U32_IN (R78) -/

/-- U32_IN past the gate. -/
theorem exec_u32In {s : State} (he : s.err = 0) (hs : s.seeded = true) :
    exec .u32In s = if s.arg1.toNat < s.arg0.toNat then .next (s.raiseFault .invertedRange (encode .u32In))
      else drawRange .u32In s := by
  rw [exec, execU32In, acceptCommand_of_ready _ _ s (s.faulted_eq_false_iff.mpr he) fun _ => hs]
  simp only [ult_eq_true_iff, refuseCommand_eq]

/-- Settles O30: past the refusals the span is the length of the range, and `lo` plus a number below it does not wrap. -/
theorem u32InCompletes : Obligations.U32InCompletes := by
  intro s he
  refine ⟨fun hs => ?_, fun hs hlt => ?_, fun hs h0 h1 => ?_, fun hs hg hle hfull => ?_⟩
  · exact exec_of_unseeded rfl he hs
  · rw [exec_u32In he hs, if_pos hlt]
    rfl
  · rw [exec_u32In he hs, if_neg (by rw [h0, h1]; decide),
      drawRange_of_span_eq_zero _ (by rw [h0, h1]; decide)]
    rfl
  · have hspan := span_toNat hle hfull
    have hne : span s.arg0 s.arg1 ≠ 0 := (toNat_pos_iff _).mp (by omega)
    obtain ⟨n, d, hn, hd, hlt, e⟩ := drawRange_completes .u32In hg hne
    have hadd : (s.arg0 + d).toNat = s.arg0.toNat + d.toNat := BitVec.toNat_add_of_lt (by omega)
    refine ⟨n, d, hn, ?_, ?_, hadd, by omega⟩
    · rw [hd, hspan]
    · rw [exec_u32In he hs, if_neg (by omega), e]
      rfl

/-! ## S32_IN (R79) -/

/-- S32_IN past the gate. -/
theorem exec_s32In {s : State} (he : s.err = 0) (hs : s.seeded = true) :
    exec .s32In s = if s.arg1.toInt < s.arg0.toInt then .next (s.raiseFault .invertedRange (encode .s32In))
      else drawRange .s32In s := by
  rw [exec, execS32In, acceptCommand_of_ready _ _ s (s.faulted_eq_false_iff.mpr he) fun _ => hs]
  simp only [slt, BitVec.slt_iff_toInt_lt, refuseCommand_eq]

/-- Settles O31: as for U32_IN, with the range and the sum measured in signed values. -/
theorem s32InCompletes : Obligations.S32InCompletes := by
  intro s he
  refine ⟨fun hs => ?_, fun hs hlt => ?_, fun hs h0 h1 => ?_, fun hs hg hle hfull => ?_⟩
  · exact exec_of_unseeded rfl he hs
  · rw [exec_s32In he hs, if_pos hlt]
    rfl
  · rw [exec_s32In he hs, if_neg (by rw [h0, h1]; decide),
      drawRange_of_span_eq_zero _ (by rw [h0, h1]; decide)]
    rfl
  · have hspan := span_toNat_signed hle hfull
    have hne : span s.arg0 s.arg1 ≠ 0 := (toNat_pos_iff _).mp (by omega)
    obtain ⟨n, d, hn, hd, hlt, e⟩ := drawRange_completes .s32In hg hne
    have hadd : (s.arg0 + d).toInt = s.arg0.toInt + d.toNat := add_toInt_of_le (hi := s.arg1) (by omega)
    refine ⟨n, d, hn, ?_, ?_, hadd, by omega⟩
    · rw [hd, Int.natCast_mod, hspan]
    · rw [exec_s32In he hs, if_neg (by omega), e]
      rfl

end Sys2Proof.Machine
end

section
/-! Proofs of the family `42_float.md`: the binary32 numbers in the order of their patterns (00_scope.md section 6.1), the
patterns of the two conversions (R90 to R93, R98, R99), and the four float commands (R94 to R97). -/

namespace Sys2Proof.Machine

/-! ## The number of a pattern (00_scope.md section 6.1) -/

/-- The number of the pattern `n` with sign bit 0, in units of `2^-149`, the smallest subnormal. -/
def f32Units (n : Nat) : Nat :=
  if n < 2 ^ 23 then n else (2 ^ 23 + n % 2 ^ 23) * 2 ^ (n / 2 ^ 23 - 1)

theorem f32Units_of_lt {n : Nat} (h : n < 2 ^ 23) : f32Units n = n := if_pos h

/-- Exponent field `e + 1` and fraction `f`. The fraction may carry into the exponent: the pattern with the significand `2^24`
is that of the next power of two. -/
theorem f32Units_normal {e f : Nat} (hf : f ≤ 2 ^ 23) :
    f32Units ((e + 1) * 2 ^ 23 + f) = (2 ^ 23 + f) * 2 ^ e := by
  rw [f32Units, if_neg (by omega)]
  obtain hlt | rfl := hf.lt_or_eq
  · rw [show ((e + 1) * 2 ^ 23 + f) % 2 ^ 23 = f by omega, show ((e + 1) * 2 ^ 23 + f) / 2 ^ 23 - 1 = e by omega]
  · rw [show ((e + 1) * 2 ^ 23 + 2 ^ 23) % 2 ^ 23 = 0 by omega,
      show ((e + 1) * 2 ^ 23 + 2 ^ 23) / 2 ^ 23 - 1 = e + 1 by omega]
    ring

/-- Patterns with sign bit 0 stand in the order of their numbers: the next pattern has the next significand. -/
theorem f32Units_strictMono : StrictMono f32Units := by
  refine strictMono_nat_of_lt_succ fun n => ?_
  by_cases hn : n < 2 ^ 23
  · rw [f32Units_of_lt hn]
    obtain h | h : n + 1 < 2 ^ 23 ∨ n + 1 = (0 + 1) * 2 ^ 23 + 0 := by omega
    · rw [f32Units_of_lt h]
      exact n.lt_succ_self
    · rw [h, f32Units_normal (Nat.zero_le _)]
      omega
  · obtain ⟨e, f, hf, rfl⟩ : ∃ e f, f < 2 ^ 23 ∧ n = (e + 1) * 2 ^ 23 + f :=
      ⟨n / 2 ^ 23 - 1, n % 2 ^ 23, Nat.mod_lt _ (by decide), by omega⟩
    rw [f32Units_normal hf.le, Nat.add_assoc, f32Units_normal hf]
    gcongr
    omega

/-- The number of a pattern is its sign times the units of its magnitude bits. -/
theorem f32Value_eq (x : Word) :
    f32Value x = (if x.toNat / 2 ^ 31 = 0 then 1 else -1) * (f32Units (x.toNat % 2 ^ 31) / 2 ^ 149) := by
  have hfrac : x.toNat % 2 ^ 31 % 2 ^ 23 = x.toNat % 2 ^ 23 := by omega
  have hexp : x.toNat % 2 ^ 31 / 2 ^ 23 = x.toNat / 2 ^ 23 % 2 ^ 8 := by omega
  by_cases he : x.toNat / 2 ^ 23 % 2 ^ 8 = 0
  · have hsub : x.toNat % 2 ^ 31 < 2 ^ 23 := by omega
    have hmag : x.toNat % 2 ^ 31 = x.toNat % 2 ^ 23 := by omega
    simp only [f32Value]
    rw [if_pos he, f32Units_of_lt hsub, hmag, zpow_neg, mul_assoc, div_eq_mul_inv]
    norm_cast
  · have hsub : ¬x.toNat % 2 ^ 31 < 2 ^ 23 := by omega
    obtain ⟨k, hk⟩ := Nat.exists_eq_succ_of_ne_zero he
    have hpow : (2 : ℚ) ^ (((k + 1 : Nat) : ℤ) - 150) = 2 ^ k / 2 ^ 149 := by
      rw [show ((k + 1 : Nat) : ℤ) - 150 = (k : ℤ) - (149 : Nat) by omega, zpow_sub₀ two_ne_zero, zpow_natCast,
        zpow_natCast]
    simp only [f32Value]
    rw [if_neg he, f32Units, if_neg hsub, hfrac, hexp, hk, hpow, Nat.succ_sub_one]
    push_cast
    ring

theorem f32Value_of_nonneg {x : Word} (h : x.toNat < 2 ^ 31) : f32Value x = f32Units x.toNat / 2 ^ 149 := by
  rw [f32Value_eq, if_pos (by omega), Nat.mod_eq_of_lt h, one_mul]

theorem f32Value_nonneg {x : Word} (h : x.toNat < 2 ^ 31) : 0 ≤ f32Value x := by
  rw [f32Value_of_nonneg h]
  positivity

theorem f32Value_nonpos {x : Word} (h : 2 ^ 31 ≤ x.toNat) : f32Value x ≤ 0 := by
  rw [f32Value_eq, if_neg (by omega), neg_one_mul, neg_nonpos]
  positivity

theorem f32Value_lt_iff {x y : Word} (hx : x.toNat < 2 ^ 31) (hy : y.toNat < 2 ^ 31) :
    f32Value x < f32Value y ↔ x.toNat < y.toNat := by
  rw [f32Value_of_nonneg hx, f32Value_of_nonneg hy, div_lt_div_iff_of_pos_right (by positivity), Nat.cast_lt,
    f32Units_strictMono.lt_iff_lt]

theorem f32Value_le_iff {x y : Word} (hx : x.toNat < 2 ^ 31) (hy : y.toNat < 2 ^ 31) :
    f32Value x ≤ f32Value y ↔ x.toNat ≤ y.toNat := by
  rw [← not_lt, f32Value_lt_iff hy hx, not_lt]

/-- No number lies between those of two patterns next to each other. -/
theorem f32Value_le_or_ge_of_succ {x x' : Word} (hx' : x'.toNat < 2 ^ 31) (h : x'.toNat = x.toNat + 1) (y : Word) :
    f32Value y ≤ f32Value x ∨ f32Value x' ≤ f32Value y := by
  have hx : x.toNat < 2 ^ 31 := by omega
  by_cases hy : y.toNat < 2 ^ 31
  · rw [f32Value_le_iff hy hx, f32Value_le_iff hx' hy]
    omega
  · exact .inl ((f32Value_nonpos (not_lt.mp hy)).trans (f32Value_nonneg hx))

/-! ## The patterns of the two conversions (R90, R92, R93) -/

/-- The patterns of the non-zero results of EunitFromBits, from `2^-24` to the last one below 1.0 (R98). -/
theorem eunitBits_bounds {b : Word} (h : b.toNat / 2 ^ 8 ≠ 0) :
    0x33800000 ≤ (eunitBits b).toNat ∧ (eunitBits b).toNat ≤ 0x3F7FFFFF := by
  obtain ⟨p, m, ⟨-, -, hp, -, hm, hm'⟩, e⟩ := eunitBits_toNat b h
  omega

/-- Where they are not 0, the two patterns are next to each other (R92). -/
theorem unitBits_toNat_eq_succ {b : Word} (h : b.toNat / 2 ^ 8 ≠ 0) :
    (unitBits b).toNat = (eunitBits b).toNat + 1 := by
  have hadd : unitBits b = eunitBits b + 1 := by
    have hv := mt (trunc_eq_zero_iff b).mp h
    rw [unitBits, eunitBits, if_neg hv, if_neg hv, BitVec.ofNat_add]
    rfl
  have hle := (eunitBits_bounds h).2
  rw [hadd]
  exact BitVec.toNat_add_of_lt (show (eunitBits b).toNat + 1 < 2 ^ 32 by omega)

theorem eunitBits_le (b : Word) : (eunitBits b).toNat ≤ 0x3F7FFFFF := by
  by_cases h : b.toNat / 2 ^ 8 = 0
  · rw [eunitBits_of_zero b h]
    decide
  · exact (eunitBits_bounds h).2

theorem unitBits_le (b : Word) : (unitBits b).toNat ≤ 0x3F800000 := by
  by_cases h : b.toNat / 2 ^ 8 = 0
  · rw [unitBits_of_zero b h]
    decide
  · have hle := eunitBits_le b
    rw [unitBits_toNat_eq_succ h]
    omega

theorem trunc_congr {b c : Word} (h : b.toNat / 2 ^ 8 = c.toNat / 2 ^ 8) : trunc b = trunc c :=
  BitVec.eq_of_toNat_eq (by rw [trunc_toNat, trunc_toNat, h])

/-- The low 8 bits have no influence (R90). -/
theorem unitBits_congr {b c : Word} (h : b.toNat / 2 ^ 8 = c.toNat / 2 ^ 8) : unitBits b = unitBits c := by
  rw [unitBits, unitBits, trunc_congr h]

theorem eunitBits_congr {b c : Word} (h : b.toNat / 2 ^ 8 = c.toNat / 2 ^ 8) : eunitBits b = eunitBits c := by
  rw [eunitBits, eunitBits, trunc_congr h]

/-- A pattern from `2^-24` to 1.0 is that of a positive normal number. -/
theorem normal_of_bounds {r : Word} (hlo : 0x33800000 ≤ r.toNat) (hhi : r.toNat ≤ 0x3F800000) :
    r.toNat / 2 ^ 31 = 0 ∧ 103 ≤ r.toNat / 2 ^ 23 % 2 ^ 8 ∧ r.toNat / 2 ^ 23 % 2 ^ 8 ≤ 127 ∧
      r.toNat ≤ 0x3F800000 := by
  omega

theorem f32Finite_of_le_one {r : Word} (h : r.toNat ≤ 0x3F800000) : f32Finite r := by
  unfold f32Finite
  omega

/-! ## The numbers of the two conversions (R91 to R93) -/

/-- Shifting the normalised value back: `m * 2^p = v * 2^23`. -/
theorem Normalises.mul_two_pow {v p m : Nat} (n : Normalises v p m) : m * 2 ^ p = v * 2 ^ 23 := by
  rw [n.m_eq, Nat.mul_assoc, ← Nat.pow_add, Nat.sub_add_cancel n.p_le]

/-- The pattern of a normalised value stands for `v * 2^-24`, and the next pattern (`d = 1`) for one unit in the last place more
(R92, R93). -/
theorem Normalises.f32Value_of_toNat {v p m d : Nat} {x : Word} (n : Normalises v p m) (hd : d ≤ 1)
    (h : x.toNat = (p + 103) * 2 ^ 23 + (m - 2 ^ 23) + d) : f32Value x = v / 2 ^ 24 + d * (2 ^ p / 2 ^ 47) := by
  have hm := n.m_lower
  have hm' := n.m_upper
  have hp := n.p_le
  have hsig : (2 ^ 23 + (m - 2 ^ 23 + d)) * 2 ^ (p + 102) = (v * 2 ^ 23 + d * 2 ^ p) * 2 ^ 102 := by
    rw [← Nat.add_assoc, Nat.add_sub_cancel' hm, ← n.mul_two_pow]
    ring
  rw [f32Value_of_nonneg (by omega), h, Nat.add_assoc, f32Units_normal (e := p + 102) (by omega), hsig]
  push_cast
  ring

/-- `EunitFromBits` is exact (R93). -/
theorem f32Value_eunitBits (b : Word) : f32Value (eunitBits b) = ((b.toNat / 2 ^ 8 : Nat) : ℚ) / 2 ^ 24 := by
  by_cases h : b.toNat / 2 ^ 8 = 0
  · rw [eunitBits_of_zero b h, h, f32Value_of_nonneg (by decide)]
    simp [f32Units]
  · obtain ⟨p, m, n, e⟩ := eunitBits_toNat b h
    rw [n.f32Value_of_toNat (d := 0) zero_le_one (e.trans (Nat.add_zero _).symm), Nat.cast_zero, zero_mul, add_zero]

/-- `UnitFromBits` is one unit in the last place more (R92). -/
theorem f32Value_unitBits {b : Word} (h : b.toNat / 2 ^ 8 ≠ 0) :
    ∃ p m, Normalises (b.toNat / 2 ^ 8) p m ∧
      f32Value (unitBits b) = ((b.toNat / 2 ^ 8 : Nat) : ℚ) / 2 ^ 24 + 2 ^ p / 2 ^ 47 := by
  obtain ⟨p, m, n, e⟩ := unitBits_toNat b h
  refine ⟨p, m, n, ?_⟩
  rw [n.f32Value_of_toNat (d := 1) le_rfl e, Nat.cast_one, one_mul]

/-- The quotient `v / (2^24 - 1)` lies in the upper half of the gap of one unit above `v / 2^24` (R92). -/
theorem Normalises.quotient_mem {v p m : Nat} (n : Normalises v p m) :
    (v : ℚ) / 2 ^ 24 + 2 ^ p / 2 ^ 47 / 2 < v / (2 ^ 24 - 1) ∧
      (v : ℚ) / (2 ^ 24 - 1) ≤ v / 2 ^ 24 + 2 ^ p / 2 ^ 47 := by
  have hlower : (2 : ℚ) ^ p ≤ v := by exact_mod_cast n.lower
  have hpos : (0 : ℚ) < 2 ^ p := by positivity
  have hupper : (v : ℚ) * 2 ^ 23 ≤ 0xFFFFFF * 2 ^ p := by
    have hm : m ≤ 0xFFFFFF := Nat.le_sub_one_of_lt n.m_upper
    have := n.mul_two_pow ▸ Nat.mul_le_mul_right (2 ^ p) hm
    exact_mod_cast this
  generalize (2 : ℚ) ^ p = u at *
  constructor <;> linarith

/-- Above the midpoint of a gap of the numbers, its upper end is the nearest number. -/
theorem abs_sub_lt_of_gap {lo hi q y : ℚ} (hmid : (lo + hi) / 2 < q) (hq : q ≤ hi) (hgap : y ≤ lo ∨ hi ≤ y)
    (hne : y ≠ hi) :
    |hi - q| < |y - q| := by
  rw [abs_of_nonneg (sub_nonneg.mpr hq)]
  obtain hy | hy := hgap
  · rw [abs_of_nonpos (by linarith)]
    linarith
  · have hlt : hi < y := hy.lt_of_ne' hne
    rw [abs_of_pos (by linarith)]
    linarith

/-- Settles O33: the significand shifted back is the value, and no result has the exponent field of the infinities. -/
theorem eunitIsExact : Obligations.EunitIsExact := fun b =>
  ⟨f32Finite_of_le_one ((eunitBits_le b).trans (by decide)), f32Value_eunitBits b⟩

/-- Settles O34: the patterns of `EunitFromBits` and `UnitFromBits` are next to each other, and the quotient lies between their
numbers, nearer to the upper one. -/
theorem unitIsCorrectlyRounded : Obligations.UnitIsCorrectlyRounded := by
  refine fun b y _ => ⟨f32Finite_of_le_one (unitBits_le b), fun hne => ?_⟩
  by_cases h : b.toNat / 2 ^ 8 = 0
  · have hzero : f32Value (unitBits b) = 0 := by
      rw [unitBits_of_zero b h, ← eunitBits_of_zero b h, f32Value_eunitBits, h]
      simp
    rw [hzero, h]
    simpa [hzero] using hne
  · obtain ⟨p, m, n, e⟩ := f32Value_unitBits h
    obtain ⟨hmid, hle⟩ := n.quotient_mem
    have hgap := f32Value_le_or_ge_of_succ ((unitBits_le b).trans_lt (by decide)) (unitBits_toNat_eq_succ h) y
    rw [f32Value_eunitBits] at hgap
    exact abs_sub_lt_of_gap (by linarith) (e ▸ hle) hgap hne

/-! ## Format and order (R98, R99) -/

/-- Settles O39: the non-zero patterns lie between those of `2^-24` and 1.0. -/
theorem floatResultsAreNormal : Obligations.FloatResultsAreNormal := by
  intro b r hr
  by_cases h : b.toNat / 2 ^ 8 = 0
  · left
    simpa [unitBits_of_zero b h, eunitBits_of_zero b h] using hr
  · right
    obtain ⟨hlo, hhi⟩ := eunitBits_bounds h
    have hsucc := unitBits_toNat_eq_succ h
    obtain rfl | rfl : r = unitBits b ∨ r = eunitBits b := by simpa using hr
    · exact normal_of_bounds (by omega) (by omega)
    · exact normal_of_bounds hlo (by omega)

/-- A larger value has a larger number, so a larger pattern (R99). -/
theorem eunitBits_lt {b c : Word} (h : b.toNat / 2 ^ 8 < c.toNat / 2 ^ 8) :
    (eunitBits b).toNat < (eunitBits c).toNat := by
  have hnonneg (x : Word) : (eunitBits x).toNat < 2 ^ 31 := (eunitBits_le x).trans_lt (by decide)
  rw [← f32Value_lt_iff (hnonneg b) (hnonneg c), f32Value_eunitBits, f32Value_eunitBits]
  gcongr

theorem unitBits_lt {b c : Word} (h : b.toNat / 2 ^ 8 < c.toNat / 2 ^ 8) : (unitBits b).toNat < (unitBits c).toNat := by
  have hlt := eunitBits_lt h
  rw [unitBits_toNat_eq_succ (b := c) (by omega)]
  by_cases hb : b.toNat / 2 ^ 8 = 0
  · rw [unitBits_of_zero b hb]
    exact Nat.succ_pos _
  · rw [unitBits_toNat_eq_succ hb]
    omega

/-- Settles O40: the number of EunitFromBits grows with the value, its pattern with the number, and the pattern of UnitFromBits
with that of EunitFromBits. -/
theorem floatResultsIncrease : Obligations.FloatResultsIncrease :=
  ⟨fun _ _ h => ⟨unitBits_congr h, eunitBits_congr h⟩, fun _ _ h => ⟨unitBits_lt h, eunitBits_lt h⟩,
    fun b => ⟨unitBits_le b, eunitBits_le b⟩⟩

/-! ## The commands (R94 to R97) -/

/-- Exactly the last 256 words give 1.0: their value is the largest, and every other value has a smaller pattern (R94). -/
theorem unitBits_eq_one_iff (b : Word) : unitBits b = 0x3F800000 ↔ 0xFFFFFF00 ≤ b.toNat := by
  have hmax : unitBits 0xFFFFFFFF = 0x3F800000 := by decide
  have hlast : (0xFFFFFFFF : Word).toNat / 2 ^ 8 = 0xFFFFFF := by decide
  rw [← hmax]
  refine ⟨fun h => ?_, fun h => unitBits_congr (by omega)⟩
  by_contra hlt
  exact (unitBits_lt (c := 0xFFFFFFFF) (by omega)).ne (congrArg BitVec.toNat h)

theorem eunitBits_of_last {b : Word} (h : 0xFFFFFF00 ≤ b.toNat) : eunitBits b = 0x3F7FFFFF := by
  have hmax : eunitBits 0xFFFFFFFF = 0x3F7FFFFF := by decide
  have hlast : (0xFFFFFFFF : Word).toNat / 2 ^ 8 = 0xFFFFFF := by decide
  rw [← hmax]
  exact eunitBits_congr (by omega)

/-- Settles O35: past the gate the command is its conversion, whose patterns grow with the value. -/
theorem unitFromBitsCompletes : Obligations.UnitFromBitsCompletes := by
  refine ⟨fun s he => ?_, fun b h => unitBits_of_zero b (by omega), unitBits_eq_one_iff, fun b hne => ?_, by decide,
    by decide, by decide⟩
  · rw [exec, execUnitFromBits, acceptCommand_of_err_eq_zero _ rfl he]
    rfl
  · have hv : b.toNat / 2 ^ 8 ≠ 0 := mt (unitBits_of_zero b) hne
    have hlo := (eunitBits_bounds hv).1
    rw [unitBits_toNat_eq_succ hv]
    omega

/-- Settles O36: as for UNIT_FROM_BITS; the largest pattern is the one below 1.0. -/
theorem eunitFromBitsCompletes : Obligations.EunitFromBitsCompletes := by
  refine ⟨fun s he => ?_, fun b h => eunitBits_of_zero b (by omega), fun b => eunitBits_of_last, fun b h => ?_, by decide,
    by decide, by decide⟩
  · rw [exec, execEunitFromBits, acceptCommand_of_err_eq_zero _ rfl he]
    rfl
  · have hle := eunitBits_le b
    rw [h] at hle
    exact absurd hle (by decide)

/-- Settles O37: the gate asks for `SEEDED`; past it one advance gives the raw word of the conversion. -/
theorem floatUnitCompletes : Obligations.FloatUnitCompletes := by
  intro s he
  refine ⟨fun hs => ?_, exec_of_unseeded rfl he⟩
  rw [exec, execFloatUnit, acceptCommand_of_ready _ _ s (s.faulted_eq_false_iff.mpr he) fun _ => hs]
  rfl

/-- Settles O38: as for FLOAT_UNIT, with the other conversion. -/
theorem floatEunitCompletes : Obligations.FloatEunitCompletes := by
  intro s he
  refine ⟨fun hs => ?_, exec_of_unseeded rfl he⟩
  rw [exec, execFloatEunit, acceptCommand_of_ready _ _ s (s.faulted_eq_false_iff.mpr he) fun _ => hs]
  rfl

end Sys2Proof.Machine
end

section
/-! Proofs of the family `43_shuffle.md`: the width of the network (R105), the network as arithmetic (R106) and as a bijection
of `[0, 4^k)` (R109), and SHUFFLE as the first-return map of the network on `[0, count)` (R107, R108). -/

namespace Sys2Proof.Machine

/-! ## The width (R105) -/

theorem four_pow_eq (k : Nat) : 4 ^ k = 2 ^ (2 * k) := by rw [Nat.pow_mul]

/-- The search of R105 ends at the first exponent of 4 that exceeds the count. -/
theorem halfBits_le_iff (c : Word) (j : Nat) : halfBits c ≤ j ↔ c.toNat < 4 ^ j := by
  obtain ⟨-, hlt, hmin⟩ := halfBits_spec c
  refine ⟨fun h => hlt.trans_le (Nat.pow_le_pow_right (by decide) h), fun h => ?_⟩
  by_contra hj
  have := hmin j (by omega)
  omega

/-- In bits: `j` pairs of bits hold the count. -/
theorem halfBits_le_iff_size (c : Word) (j : Nat) : halfBits c ≤ j ↔ Nat.size c.toNat ≤ 2 * j := by
  rw [halfBits_le_iff, Nat.size_le, four_pow_eq]

/-- Settles O41: both descriptions of the width bound the same exponents. -/
theorem halfBitsIsLeast : Obligations.HalfBitsIsLeast := by
  intro c
  refine ⟨(halfBits_spec c).2.1, fun j => (halfBits_le_iff c j).mpr, ?_⟩
  have hle := (halfBits_le_iff_size c (halfBits c)).mp le_rfl
  have hge := (halfBits_le_iff_size c ((Nat.size c.toNat + 1) / 2)).mpr (by omega)
  omega

/-- The domain of the network is at most four times the count (R107). -/
theorem four_pow_halfBits_le (c : Word) (hc : 0 < c.toNat) : 4 ^ halfBits c ≤ 4 * c.toNat := by
  cases hk : halfBits c with
  | zero => omega
  | succ j =>
    have hj := (halfBits_spec c).2.2 j (by omega)
    rw [Nat.pow_succ]
    omega

/-! ## The network as arithmetic (R106) -/

/-- `(left, right)` after `j` rounds. -/
def halvesAfter (k : Nat) (seed x : Word) (j : Nat) : Word × Word := (feistelRound k seed)^[j] (splitHalves k x)

theorem halvesAfter_succ (k : Nat) (seed x : Word) (j : Nat) :
    halvesAfter k seed x (j + 1) = feistelRound k seed (halvesAfter k seed x j) :=
  Function.iterate_succ_apply' _ _ _

theorem feistel_eq_joinHalves (k : Nat) (seed x : Word) : feistel k seed x = joinHalves k (halvesAfter k seed x 4) := rfl

theorem halvesAfter_isHalves {k : Nat} (hk : k ≤ 16) (seed x : Word) (j : Nat) : IsHalves k (halvesAfter k seed x j) := by
  induction j with
  | zero => exact splitHalves_isHalves k hk x
  | succ j ih =>
    rw [halvesAfter_succ]
    exact feistelRound_isHalves k hk seed _ ih

theorem splitHalves_snd_toNat {k : Nat} (hk : k ≤ 16) (x : Word) : (splitHalves k x).2.toNat = x.toNat % 2 ^ k :=
  and_rightMask_toNat k hk x

theorem splitHalves_fst_toNat {k : Nat} (hk : k ≤ 16) {x : Word} (hx : x.toNat < 4 ^ k) :
    (splitHalves k x).1.toNat = x.toNat / 2 ^ k := by
  have hdiv : x.toNat / 2 ^ k < 2 ^ k := by
    rw [four_pow_eq, Nat.two_mul, Nat.pow_add] at hx
    exact Nat.div_lt_of_lt_mul hx
  rw [splitHalves, and_rightMask_toNat k hk, shr32, BitVec.toNat_ushiftRight, Nat.shiftRight_eq_div_pow,
    Nat.mod_eq_of_lt hdiv]

/-- One round on numbers: the whole seed goes into `F`, the mask stands on its result only. -/
theorem feistelRound_snd_toNat {k : Nat} (hk : k ≤ 16) (seed : Word) (h : Word × Word) :
    (feistelRound k seed h).2.toNat =
      h.1.toNat ^^^ (finalizer (BitVec.ofNat 32 (h.2.toNat ^^^ seed.toNat))).toNat % 2 ^ k := by
  have hxor : BitVec.ofNat 32 (h.2.toNat ^^^ seed.toNat) = xor32 h.2 seed := by
    rw [xor32, ← BitVec.toNat_xor, BitVec.ofNat_toNat, BitVec.setWidth_eq]
  rw [hxor, ← and_rightMask_toNat k hk, ← BitVec.toNat_xor]
  rfl

/-- Settles O56: `l j` and `r j` are the numbers of the halves after `j` rounds of the model. -/
theorem feistelFormula : Obligations.FeistelFormula := by
  intro k seed x _ hk hx
  refine ⟨fun j => (halvesAfter k seed x j).1.toNat, fun j => (halvesAfter k seed x j).2.toNat,
    splitHalves_fst_toNat hk hx, splitHalves_snd_toNat hk x, fun j _ => ?_,
    joinHalves_toNat k hk _ (halvesAfter_isHalves hk seed x 4)⟩
  simp only [halvesAfter_succ]
  exact ⟨rfl, feistelRound_snd_toNat hk seed _⟩

/-! ## The network as a bijection (R109) -/

/-- The words `[0, n)`. -/
def wordsBelow (n : Nat) : Set Word := {x | x.toNat < n}

theorem wordsBelow_finite (n : Nat) : (wordsBelow n).Finite :=
  (Set.finite_lt_nat n).preimage (BitVec.toNat_injective.injOn)

/-- An injective map of `[0, n)` into itself takes each of its values exactly once, `[0, n)` being finite. -/
theorem existsUnique_of_injOn_wordsBelow {n : Nat} {f : Word → Word} (hmaps : Set.MapsTo f (wordsBelow n) (wordsBelow n))
    (hinj : Set.InjOn f (wordsBelow n)) {y : Word} (hy : y.toNat < n) : ∃! x : Word, x.toNat < n ∧ f x = y := by
  have hbij := ((wordsBelow_finite n).injOn_iff_bijOn_of_mapsTo hmaps).mp hinj
  obtain ⟨x, hx, hxy⟩ := hbij.surjOn hy
  exact ⟨x, ⟨hx, hxy⟩, fun z ⟨hz, hzy⟩ => hinj hz hx (hzy.trans hxy.symm)⟩

theorem feistel_mapsTo {k : Nat} (hk : k ≤ 16) (seed : Word) :
    Set.MapsTo (feistel k seed) (wordsBelow (4 ^ k)) (wordsBelow (4 ^ k)) :=
  fun x _ => feistel_lt k hk seed x

theorem feistel_injOn {k : Nat} (hk : k ≤ 16) (seed : Word) : Set.InjOn (feistel k seed) (wordsBelow (4 ^ k)) :=
  fun x hx y hy e => feistel_injective k hk seed x y hx hy e

/-- Settles O42: the network keeps `[0, 4^k)` and is injective on it. -/
theorem feistelIsBijective : Obligations.FeistelIsBijective :=
  fun k seed y _ hk hy =>
    ⟨feistel_lt k hk seed y, existsUnique_of_injOn_wordsBelow (feistel_mapsTo hk seed) (feistel_injOn hk seed) hy⟩

/-! ## The first-return map (R107) -/

/-- The result of the walk from `index`. The default is never used for an index below the count (`shuffleIndex_completes`). -/
def shuffled (count seed index : Word) : Word := (shuffleIndex index count seed).getD index

theorem shuffleIndex_eq_some_shuffled {count seed index : Word} (hi : index.toNat < count.toNat) :
    shuffleIndex index count seed = some (shuffled count seed index) := by
  obtain ⟨n, -, e⟩ := shuffleIndex_completes index count seed ((ult_eq_true_iff _ _).mpr hi)
  rw [shuffled, e, Option.getD_some]

/-- The walk ends at its first return below the count, and there is one within the bound of R107. -/
theorem exists_returnsAt_shuffled {count index : Word} (seed : Word) (hi : index.toNat < count.toNat) :
    ∃ n, ReturnsAt count seed (halfBits count) index n ∧ n ≤ 4 ^ halfBits count - count.toNat + 1 ∧
      shuffled count seed index = (feistel (halfBits count) seed)^[n] index := by
  have hi' := (ult_eq_true_iff index count).mpr hi
  obtain ⟨hk, hc, -⟩ := halfBits_spec count
  obtain ⟨n, hn, hr⟩ := exists_returnsAt index count seed _ hk hc.le hi'
  obtain ⟨m, hm, e⟩ := shuffleIndex_completes index count seed hi'
  obtain rfl := hr.unique hm
  exact ⟨n, hr, hn, by rw [shuffled, e, Option.getD_some]⟩

theorem ReturnsAt.iterate_lt {count seed x : Word} {k n : Nat} (h : ReturnsAt count seed k x n) :
    ((feistel k seed)^[n] x).toNat < count.toNat :=
  (ult_eq_true_iff _ _).mp h.2.2

/-- Two walks that return at the same value start at the same index: the longer one passes the start of the shorter one, which
is below the count, and only its own start is that before it returns. -/
theorem ReturnsAt.start_eq {count seed x y : Word} {k m n : Nat} (hk : k ≤ 16) (hc : count.toNat ≤ 4 ^ k)
    (hx : x.toNat < count.toNat) (hy : y.toNat < count.toNat) (hm : ReturnsAt count seed k x m)
    (hn : ReturnsAt count seed k y n) (hmn : m ≤ n) (e : (feistel k seed)^[m] x = (feistel k seed)^[n] y) : x = y := by
  obtain ⟨d, rfl⟩ := Nat.exists_eq_add_of_le hmn
  rw [Function.iterate_add_apply] at e
  have hxd : x = (feistel k seed)^[d] y :=
    (feistel_injOn hk seed).iterate (feistel_mapsTo hk seed) m (hx.trans_le hc)
      (feistel_iterate_lt k hk seed y (hy.trans_le hc) d) e
  rcases Nat.eq_zero_or_pos d with rfl | hd
  · exact hxd
  · obtain ⟨hm1, -, -⟩ := hm
    obtain ⟨-, hbefore, -⟩ := hn
    have hge := (ult_eq_false_iff _ _).mp (hbefore d hd (by omega))
    rw [← hxd] at hge
    omega

theorem shuffled_mapsTo (count seed : Word) :
    Set.MapsTo (shuffled count seed) (wordsBelow count.toNat) (wordsBelow count.toNat) := by
  intro x hx
  obtain ⟨n, hn, -, e⟩ := exists_returnsAt_shuffled seed hx
  rw [e]
  exact hn.iterate_lt

theorem shuffled_injOn (count seed : Word) : Set.InjOn (shuffled count seed) (wordsBelow count.toNat) := by
  intro x hx y hy e
  obtain ⟨hk, hc, -⟩ := halfBits_spec count
  obtain ⟨m, hm, -, ex⟩ := exists_returnsAt_shuffled seed hx
  obtain ⟨n, hn, -, ey⟩ := exists_returnsAt_shuffled seed hy
  rw [ex, ey] at e
  rcases Nat.le_total m n with h | h
  · exact hm.start_eq hk hc.le hx hy hn h e
  · exact (hn.start_eq hk hc.le hy hx hm h e.symm).symm

/-! ## The command (R108) -/

/-- SHUFFLE needs no generator state and writes `RES` only. -/
theorem exec_shuffle (s : State) (he : s.err = 0) (hi : s.arg0.toNat < s.arg1.toNat) :
    exec .shuffle s = .next (s.setRes (shuffled s.arg1 s.arg2 s.arg0)) := by
  rw [exec, execShuffle, acceptCommand_of_err_eq_zero _ rfl he, if_pos ((ult_eq_true_iff _ _).mpr hi), walkInto,
    shuffleIndex_eq_some_shuffled hi]
  rfl

/-- Settles O43: the first return below the count; the domain of the walk is at most four times the count. -/
theorem shuffleCompletes : Obligations.ShuffleCompletes := by
  intro s he hi
  obtain ⟨n, hr, hn, e⟩ := exists_returnsAt_shuffled s.arg2 hi
  have hdomain := four_pow_halfBits_le s.arg1 (by omega)
  refine ⟨n, hr, hn, by omega, ?_, hr.iterate_lt⟩
  rw [exec_shuffle s he hi, e]
  rfl

/-- For an index below the count the outcome of SHUFFLE says what its result is. -/
theorem exec_shuffle_eq_iff (s : State) (x y : Word) (he : s.err = 0) (hx : x.toNat < s.arg1.toNat) :
    exec .shuffle { s with arg0 := x } = .next { s with arg0 := x, res := y } ↔ shuffled s.arg1 s.arg2 x = y := by
  rw [exec_shuffle { s with arg0 := x } he hx]
  constructor
  · intro h
    injection h with h
    exact congrArg State.res h
  · rintro rfl
    rfl

/-- Settles O44: the first-return map keeps `[0, count)` and is injective on it. -/
theorem shuffleIsPermutation : Obligations.ShuffleIsPermutation := by
  intro s y he hy
  refine (existsUnique_congr fun x => and_congr_right fun hx => exec_shuffle_eq_iff s x y he hx).mpr ?_
  exact existsUnique_of_injOn_wordsBelow (shuffled_mapsTo s.arg1 s.arg2) (shuffled_injOn s.arg1 s.arg2) hy

end Sys2Proof.Machine
end

section
/-! Proofs of the family `44_system.md`: CLRERR leaves the faulted state and changes nothing else, and it alone runs there
(R115). -/

namespace Sys2Proof.Machine

/-! ## Leaving the faulted state (R115) -/

@[simp] theorem exec_clrErr (s : State) : exec .clrErr s = .next s.clearFault := rfl

/-- There is nothing to clear where the fault registers are 0. -/
theorem State.clearFault_eq_self {s : State} (he : s.err = 0) (hf : s.finfo = 0) : s.clearFault = s := by
  rw [State.clearFault, ← he, ← hf]

/-! ## Discarded words (R49 step 1, R144) -/

/-- A faulted engine discards every command but CLRERR. -/
theorem exec_of_faulted {i : Instr} {s : State} (hi : i ≠ .clrErr) (he : s.err ≠ 0) : exec i s = .next s := by
  obtain ⟨run, e⟩ := exec_eq_acceptCommand hi
  rw [e, acceptCommand_of_faulted i run s (s.faulted_eq_true_iff.mpr he)]

/-- A faulted engine discards a word that names no command. -/
theorem refuseWord_of_faulted (w : Word) {s : State} (he : s.err ≠ 0) : refuseWord w s = s := by
  rw [refuseWord, if_pos (s.faulted_eq_true_iff.mpr he)]

/-! ## The obligations -/

/-- Settles O16: CLRERR does not pass the gate that discards every other command, and the word `0x00000103`, with its reserved
bit, is no word of CLRERR. -/
theorem clrErrClearsFault : Obligations.ClrErrClearsFault := by
  refine ⟨exec_clrErr, fun s hr he => ?_, fun i s he hi => exec_of_faulted hi he, fun s rest he hp => ?_⟩
  · obtain ⟨-, hfinfo⟩ := hr
    rw [exec_clrErr, State.clearFault_eq_self he (hfinfo he)]
  · have hd : decode 0x00000103 = .error .reservedBits := decode_append_of_rsv_ne_zero (rsv := 1) 0x03 (by decide)
    have hw : refuseWord 0x00000103 (s.withPending rest) = s.withPending rest := refuseWord_of_faulted _ he
    rw [step_illegal s _ _ rest hp hd, hw]
    rfl

/-- Settles O48: the next state is the one with the fault registers cleared. -/
theorem frameOfClrErr : Obligations.FrameOfClrErr := by
  intro s t h
  obtain rfl : s.clearFault = t := by simpa using h
  simp

end Sys2Proof.Machine
end

section
/-! Proofs of the family `48_host_layer.md`: the order of the binary32 numbers by their ranks (00_scope.md section 6.1, log 15),
and the orientation of the hemisphere sample (R125). -/

namespace Sys2Proof.Machine

/-! ## The number of a rank (log 15) -/

/-- The number at the place `r` in the order, in units of `2^-149`: `f32Units` continued as an odd function. -/
def f32SignedUnits (r : ℤ) : ℤ := r.sign * f32Units r.natAbs

theorem f32SignedUnits_neg (r : ℤ) : f32SignedUnits (-r) = -f32SignedUnits r := by
  rw [f32SignedUnits, Int.sign_neg, Int.natAbs_neg, neg_mul, f32SignedUnits]

theorem f32SignedUnits_natCast (n : ℕ) : f32SignedUnits n = f32Units n := by
  cases n with
  | zero => rfl
  | succ n => rw [f32SignedUnits, Int.sign_eq_one_of_pos (Int.natCast_succ_pos n), one_mul, Int.natAbs_natCast]

/-- A higher place is a greater number: it is so from 0 on, and the function is odd. -/
theorem f32SignedUnits_strictMono : StrictMono f32SignedUnits := by
  refine strictMono_of_odd_strictMonoOn_nonneg f32SignedUnits_neg fun m hm n hn hlt => ?_
  lift m to ℕ using hm
  lift n to ℕ using hn
  rw [f32SignedUnits_natCast, f32SignedUnits_natCast]
  exact_mod_cast f32Units_strictMono (Nat.cast_lt.mp hlt)

/-- The number of a pattern depends on its rank only. -/
theorem f32Value_eq_f32SignedUnits (x : Word) : f32Value x = f32SignedUnits (f32Rank x) / 2 ^ 149 := by
  rw [f32Value_eq, f32Rank]
  split
  · rw [f32SignedUnits_natCast, Int.cast_natCast, one_mul]
  · rw [f32SignedUnits_neg, f32SignedUnits_natCast, Int.cast_neg, Int.cast_natCast, neg_one_mul, neg_div]

theorem f32Rank_le_iff (x y : Word) : f32Rank x ≤ f32Rank y ↔ f32Value x ≤ f32Value y := by
  rw [f32Value_eq_f32SignedUnits, f32Value_eq_f32SignedUnits, div_le_div_iff_of_pos_right (by positivity), Int.cast_le,
    f32SignedUnits_strictMono.le_iff_le]

theorem f32Rank_neg_iff (x : Word) : f32Rank x < 0 ↔ f32Value x < 0 := by
  rw [f32Value_eq_f32SignedUnits, div_lt_iff₀ (by positivity), zero_mul, Int.cast_lt_zero]
  exact f32SignedUnits_strictMono.lt_iff_lt.symm

/-- Settles O57: for finite patterns both tests compare ranks, and ranks stand in the order of the numbers. -/
theorem floatOrderIsOrderOfNumbers : Obligations.FloatOrderIsOrderOfNumbers := by
  intro x y hx hy
  rw [f32Le_of_finite x y hx hy, f32Negative_of_finite x hx, decide_eq_true_iff, decide_eq_true_iff]
  exact ⟨f32Rank_le_iff x y, f32Rank_neg_iff x⟩

/-! ## The hemisphere (R125) -/

/-- The hemisphere sample is the sphere sample turned to the side of the normal, and no draw follows. -/
theorem pointOnUnitHemisphere_of_sphere {s t : State} {p : Word × Word × Word} (normal : Word × Word × Word)
    (h : pointOnUnitSphere s = some (p, t)) : pointOnUnitHemisphere normal s = some (orientTo normal p, t) := by
  rw [pointOnUnitHemisphere, h]

/-- Settles O58: the sample is turned by `orientTo`, and both zeros have rank 0. -/
theorem hemisphereFlipsNegative : Obligations.HemisphereFlipsNegative := by
  refine ⟨fun normal p s t h => pointOnUnitHemisphere_of_sphere normal h, fun x hx => ?_⟩
  rcases hx with rfl | rfl
  · decide
  · decide

end Sys2Proof.Machine
end

section
/-! Proofs of the family `60_exceptions.md`: which fault a command raises (R141, R142), what fault entry leaves unchanged (R143,
R148), what a faulted engine does (R144) and how it leaves that state (R145). -/

namespace Sys2Proof.Machine

/-! ## Which fault a command raises (R141, R142) -/

/-- The outcome `o` of the command `i` in the state `s` is fault entry with the code that `cause` gives, and records no fault
where it gives none (R143). -/
def RaisesExactly (cause : Option (BitVec 4)) (i : Instr) (s : State) (o : Result) : Prop :=
  (∀ c, cause = some c → o = .next { s with err := c, finfo := encode i }) ∧ (cause = none → ∀ t, o = .next t → t.err = 0)

namespace RaisesExactly

variable {i : Instr} {s : State} {o : Result}

theorem refused (c : FaultCode) : RaisesExactly (some c.code) i s (.next (s.raiseFault c (encode i))) :=
  ⟨fun _ h => by cases h; rfl, nofun⟩

/-- An outcome that keeps `ERR` records no fault; a hang (R166) is one of them. -/
theorem keeps (he : s.err = 0) (h : ∀ t, o = .next t → t.err = s.err) : RaisesExactly none i s o :=
  ⟨nofun, fun _ t e => (h t e).trans he⟩

theorem completed {t : State} (h : t.err = 0) : RaisesExactly none i s (.next t) :=
  ⟨nofun, fun _ _ e => by cases e; exact h⟩

/-- A test that comes before the other causes in both the table and the rule. -/
theorem refused_if {p : Prop} [Decidable p] (c : FaultCode) {cause : Option (BitVec 4)} (h : ¬p → RaisesExactly cause i s o) :
    RaisesExactly (if p then some c.code else cause) i s (if p then .next (s.raiseFault c (encode i)) else o) := by
  split
  case isTrue => exact refused c
  case isFalse hp => exact h hp

end RaisesExactly

/-- A draw raises no fault (R76). -/
theorem drawInto_keeps_err {bound : Word} {result : Word → Word} {s t : State} (h : drawInto bound result s = .next t) :
    t.err = s.err := by
  obtain ⟨n, v, rfl⟩ := drawInto_drawsTo bound result s t h
  rfl

/-- The span of an unsigned range wraps to 0 for the full range only (R78). -/
theorem span_eq_zero_iff {lo hi : Word} (h : lo.toNat ≤ hi.toNat) : span lo hi = 0 ↔ lo = 0 ∧ hi = 0xFFFFFFFF := by
  constructor
  · intro hz
    by_contra hfull
    have hspan := span_toNat h hfull
    exact (toNat_pos_iff (span lo hi)).mp (by omega) hz
  · rintro ⟨rfl, rfl⟩
    decide

/-- The span of a signed range wraps to 0 for the full range only (R79). -/
theorem span_eq_zero_iff_signed {lo hi : Word} (h : lo.toInt ≤ hi.toInt) :
    span lo hi = 0 ↔ lo = 0x80000000 ∧ hi = 0x7FFFFFFF := by
  constructor
  · intro hz
    by_contra hfull
    have hspan := span_toNat_signed h hfull
    exact (toNat_pos_iff (span lo hi)).mp (by omega) hz
  · rintro ⟨rfl, rfl⟩
    decide

/-- Past the test for an inverted range the one cause is the full range, for either comparison (R78, R79). -/
theorem drawRange_raises (i : Instr) {s : State} {full : Prop} [Decidable full] (he : s.err = 0)
    (h : span s.arg0 s.arg1 = 0 ↔ full) : RaisesExactly (if full then some 3 else none) i s (drawRange i s) := by
  simp only [drawRange, h, refuseCommand_eq]
  exact .refused_if .zeroBound fun _ => .keeps he fun _ => drawInto_keeps_err

/-- SHUFFLE past the gate, with the refusal first (R108). -/
theorem exec_shuffle_eq_ite {s : State} (he : s.err = 0) :
    exec .shuffle s = if s.arg1.toNat ≤ s.arg0.toNat then .next (s.raiseFault .shuffleRange (encode .shuffle))
      else walkInto s := by
  rw [exec, execShuffle, acceptCommand_of_err_eq_zero _ rfl he, ← ite_not]
  simp only [ult_eq_true_iff, not_lt, refuseCommand_eq]

/-- Settles O12: `UNSEEDED` comes first for the commands that need the generator state; past the gate each command tests for its
own causes in the order of the table. -/
theorem faultsAreThoseOfTheTable : Obligations.FaultsAreThoseOfTheTable := by
  intro i s he
  change RaisesExactly (faultCause i s) i s (exec i s)
  have hf := s.faulted_eq_false_iff.mpr he
  by_cases hu : i ∈ stateConsuming ∧ s.seeded = false
  · have hcause : faultCause i s = some 2 := if_pos hu
    obtain ⟨hi, hs⟩ := hu
    rw [hcause, exec_of_unseeded ((needsSeeded_iff i).mpr hi) he hs]
    exact .refused .unseeded
  have hready : i ∈ stateConsuming → s.seeded = true := fun hi => by simpa [hi] using hu
  have hfree : i ∈ [Instr.seed, .mix32, .unitFromBits, .eunitFromBits] → RaisesExactly none i s (exec i s) :=
    fun hi => .keeps he fun _ h => (exec_keeps_faultRegs hi h).left
  unfold faultCause
  rw [if_neg hu]
  cases i with
  | seed => exact hfree (by decide)
  | mix32 => exact hfree (by decide)
  | unitFromBits => exact hfree (by decide)
  | eunitFromBits => exact hfree (by decide)
  | clrErr => exact .completed rfl
  | ldst =>
    rw [exec, execLdst, acceptCommand_of_err_eq_zero _ rfl he]
    exact .refused_if .zeroState fun _ => .completed he
  | shuffle =>
    rw [exec_shuffle_eq_ite he]
    refine .refused_if .shuffleRange fun hle => ?_
    obtain ⟨n, -, e⟩ := walkInto_completes s ((ult_eq_true_iff _ _).mpr (not_le.mp hle))
    rw [e]
    exact .completed he
  | advance =>
    rw [exec, execAdvance, acceptCommand_of_ready _ _ s hf fun _ => hready (by decide)]
    exact .completed he
  | floatUnit =>
    rw [exec, execFloatUnit, acceptCommand_of_ready _ _ s hf fun _ => hready (by decide)]
    exact .completed he
  | floatEunit =>
    rw [exec, execFloatEunit, acceptCommand_of_ready _ _ s hf fun _ => hready (by decide)]
    exact .completed he
  | oneIn =>
    rw [exec, execOneIn, acceptCommand_of_ready _ _ s hf fun _ => hready (by decide)]
    refine .keeps he fun t h => ?_
    split at h
    · cases h
      rfl
    · exact drawInto_keeps_err h
  | u32To =>
    rw [exec, execU32To, acceptCommand_of_ready _ _ s hf fun _ => hready (by decide)]
    exact .refused_if .zeroBound fun _ => .keeps he fun _ => drawInto_keeps_err
  | u32In =>
    rw [exec_u32In he (hready (by decide))]
    exact .refused_if .invertedRange fun hle => drawRange_raises _ he (span_eq_zero_iff (not_lt.mp hle))
  | s32In =>
    rw [exec_s32In he (hready (by decide))]
    exact .refused_if .invertedRange fun hle => drawRange_raises _ he (span_eq_zero_iff_signed (not_lt.mp hle))

/-- Settles O14: the causes of the three commands in the order of the table, each as its own rule gives it. -/
theorem unseededComesFirst : Obligations.UnseededComesFirst := by
  intro s he
  obtain ⟨hto, htoZero, -⟩ := u32ToCompletes s he
  obtain ⟨hin, hinInverted, hinFull, -⟩ := u32InCompletes s he
  obtain ⟨hsin, hsinInverted, hsinFull, -⟩ := s32InCompletes s he
  exact ⟨fun hz => ⟨hto, fun hs => htoZero hs hz⟩,
    fun hlt => ⟨hin, fun hs => hinInverted hs hlt⟩,
    fun h0 h1 => ⟨hin, fun hs => hinFull hs h0 h1⟩,
    fun hlt => ⟨hsin, fun hs => hsinInverted hs hlt⟩,
    fun h0 h1 => ⟨hsin, fun hs => hsinFull hs h0 h1⟩⟩

/-! ## Fault entry (R143, R148) -/

/-- Settles O13: CLRERR leaves `ERR` 0, and any other command that changes `ERR` is refused with one of the six codes. -/
theorem faultsArePrecise : Obligations.FaultsArePrecise := by
  intro i s t he h hne
  by_cases hi : i = .clrErr
  · subst hi
    cases h
    exact absurd rfl hne
  · obtain ⟨c, rfl⟩ := (exec_effect i s t h).eq_raiseFault hi (by rwa [he])
    exact ⟨rfl, c.code_le_six⟩

/-! ## The faulted state (R144, R145) -/

/-- A faulted engine discards every word but the one of CLRERR, whether or not it names a command. -/
theorem writeCmd_of_faulted {w : Word} {s : State} (he : s.err ≠ 0) (hw : w ≠ encode .clrErr) : writeCmd w s = .next s := by
  rw [writeCmd]
  cases hd : decode w with
  | error => rw [dispatch, refuseWord_of_faulted w he]
  | ok i =>
    have hi : i ≠ .clrErr := by
      rintro rfl
      exact hw (encode_of_decode hd).symm
    rw [dispatch, exec_of_faulted hi he]

theorem step_discards {w : Word} {s : State} {rest : List Transaction} (he : s.err ≠ 0) (hw : w ≠ encode .clrErr)
    (hp : s.pending = .write 0 w :: rest) : step s = .next (s.withPending rest) := by
  have hd : writeCmd w (s.withPending rest) = .next (s.withPending rest) := writeCmd_of_faulted he hw
  rw [step_cons s _ _ hp, acceptTransaction, transact, portWrite, if_pos rfl, hd, abandonIfReset_next]

/-- Settles O15: a discarded word leaves only the pending list shorter; the port asks no more of reads and of the stores of
operands than in any other state. -/
theorem faultedEngineDiscards : Obligations.FaultedEngineDiscards := by
  intro s rest he
  refine ⟨fun w hw hp => step_discards he hw hp, fun i hp => step_read s i rest hp, fun v => ?_⟩
  obtain ⟨h0, h1, h2, -⟩ := portWritesRegisters s v rest
  exact ⟨h0, h1, h2⟩

theorem step_clrErr {s : State} {rest : List Transaction} (hp : s.pending = .write 0 0x00000003 :: rest) :
    step s = .next (s.withPending rest).clearFault :=
  step_of_exec s _ .clrErr rest hp (exec_clrErr _)

/-- A step of a faulted engine keeps `ERR` unless it runs CLRERR or resets. -/
theorem step_of_faulted {s t : State} (he : s.err ≠ 0) (h : step s = .next t) :
    t.err = s.err ∨ ∃ rest, s.pending = .write 0 0x00000003 :: rest ∨ s.pending = .reset :: rest := by
  match hp : s.pending with
  | [] =>
    cases (step_nil s hp).symm.trans h
    exact .inl rfl
  | .read i :: rest =>
    cases (step_read s i rest hp).symm.trans h
    exact .inl rfl
  | .reset :: rest => exact .inr ⟨rest, .inr rfl⟩
  | .write i v :: rest =>
    by_cases hi : i = 0
    · subst hi
      by_cases hv : v = 0x00000003
      · subst hv
        exact .inr ⟨rest, .inl rfl⟩
      · cases (step_discards he hv hp).symm.trans h
        exact .inl rfl
    · cases (step_write s i v rest hp hi).symm.trans h
      exact .inl (by simp)

/-- Settles O17: the only two steps that change a non-zero `ERR` are the two that clear it. -/
theorem onlyClrErrAndResetLeaveFault : Obligations.OnlyClrErrAndResetLeaveFault := by
  refine ⟨fun s rest hp => step_clrErr hp, fun s rest hp => ⟨_, step_reset s rest hp, rfl, rfl⟩, fun s t h he hne => ?_⟩
  obtain ⟨rest, hp⟩ := (step_of_faulted he h).resolve_left hne
  rcases hp with hp | hp
  · cases (step_clrErr hp).symm.trans h
    exact ⟨rfl, rfl, rest, .inl hp⟩
  · cases (step_reset s rest hp).symm.trans h
    exact ⟨rfl, rfl, rest, .inr hp⟩

end Sys2Proof.Machine
end
